-- ==== Sys2Proof/Word.lean ====
section
/-! DEFINITION. The word types and the two logic levels (00_scope.md R9). -/

namespace Sys2Proof

/-- A byte: 8 bits, unsigned (R9). -/
abbrev Byte := BitVec 8

/-- A nibble: "a 4-bit half-byte" (R9). -/
abbrev Nibble := BitVec 4

/-- The level a line is driven to; as a bit, low = 0 and high = 1 (R9). -/
inductive Level where
  | low
  | high
  deriving DecidableEq, Repr

end Sys2Proof
end

