-- ==== Sys2Proof/Config.lean ====
section
/-! DEFINITION. The open parameters of 00_scope.md R8, as one record. The machine's state carries one
value of it (`State.par`) that no step writes, so every statement about all states holds for every choice of the
parameters; the spec's defaults are `Config.defaults` in Machine/Params.lean. -/

namespace Sys2Proof

/-- The parameters R8 calls "open". -/
structure Params where
  /-- `CONFIG_LEVEL`: the level of a line just after it is configured as output (R31, D7). -/
  configLevel : Level
  /-- `T_MODE_COMMIT`: the wait after the `0010` nibble, if one is emitted (R141, D9). -/
  tModeCommit : Option Nat
  /-- `HOME_EXTRA_DELAY`: whether `home` waits `T_CMD` a second time (R182, D12). -/
  homeExtraDelay : Bool
  /-- `CMD_CLEAR` (R108, D13). -/
  cmdClear : Byte
  /-- `CMD_HOME` (R109, D13). -/
  cmdHome : Byte
  /-- `CMD_FUNCTION_SET` (R110, D13). -/
  cmdFunctionSet : Byte
  /-- `CMD_DISPLAY_CONTROL` (R111, D13). -/
  cmdDisplayControl : Byte
  /-- `CMD_SET_CGRAM` (R112, D13). -/
  cmdSetCgram : Byte
  /-- `CMD_SET_DDRAM` (R113, D13). -/
  cmdSetDdram : Byte
  /-- `STRING_END`: the end marker of a `write_string` operand, an element of it (R187, D17). -/
  stringEnd : Nat
  /-- `W_OPERAND`: the width in bits of `row`, `column`, `slot` and every data byte of a host request (R8, R32, D3). -/
  wOperand : Nat
  /-- `W_TIME`: the width in bits of the four timing registers; `none` is "unbounded natural numbers" (R8, D3). -/
  wTime : Option Nat
  /-- `BLANK`: what the observer's cells hold after a clear (R84, D26). -/
  blank : Byte
  deriving DecidableEq, Repr

end Sys2Proof
end

