-- ==== Sys2Proof/Machine/Params.lean ====
section
/-! DEFINITION. The fixed parameters of the block and the defaults of its open ones (00_scope.md R8). -/

namespace Sys2Proof

/-- The defaults of the open parameters (R8). PRESUMED, unsafe: the `CMD_*` bytes, `STRING_END` and `BLANK` are the spec's
"general knowledge" (D13, D17, D26; log entry 4). -/
def Config.defaults : Params where
  configLevel := .low
  tModeCommit := none
  homeExtraDelay := false
  cmdClear := 0x01
  cmdHome := 0x02
  cmdFunctionSet := 0x20
  cmdDisplayControl := 0x08
  cmdSetCgram := 0x40
  cmdSetDdram := 0x80
  stringEnd := 0x00
  wOperand := 8
  wTime := none
  blank := 0x20

/-- `N_ROWS`: rows accepted by `set_cursor`. -/
abbrev Config.nRows : Nat := 2

/-- `N_COLS`: columns accepted by `set_cursor`. -/
abbrev Config.nCols : Nat := 16

/-- `N_SLOTS`: custom glyph slots. -/
abbrev Config.nSlots : Nat := 8

/-- `T_ESETUP`: the wait between driving E low and E high, in microseconds (D11). -/
abbrev Config.tEsetup : Nat := 1

/-- `T_RESYNC[1]` and `T_RESYNC[2]`, in microseconds (R141). -/
abbrev Config.tResyncLong : Nat := 4500

/-- `T_RESYNC[3]`, in microseconds (R141). -/
abbrev Config.tResyncShort : Nat := 150

/-- `T_CMD_MIN`, in microseconds (R86, R260). -/
abbrev Config.tCmdMin : Nat := 37

/-- `T_CLEAR_MIN`, in microseconds (R86, R260). -/
abbrev Config.tClearMin : Nat := 1500

end Sys2Proof
end

