-- ==== Sys2Proof/Syntax.lean ====
section
/-! DEFINITION. Syntax: the operand types of the host requests and the one inductive of instructions, one constructor
per row of spec/opcode_table.json. -/

namespace Sys2Proof

/-- A PinRef: one GPIO line, "a port/bank identifier + pin index" (10_state.md R21); the block never computes with it. -/
structure PinRef where
  bank : Nat
  index : Nat
  deriving DecidableEq, Repr

/-- PinConfig, exactly six PinRefs (R22). -/
structure PinConfig where
  rs : PinRef
  e : PinRef
  d0 : PinRef
  d1 : PinRef
  d2 : PinRef
  d3 : PinRef
  deriving DecidableEq, Repr

/-- TimingConfig, four durations: `tPoweron` in milliseconds, the others in microseconds (R24). Their width is the open
parameter `W_TIME` (`TimingConfig.fits`). -/
structure TimingConfig where
  tPoweron : Nat
  tEnpulse : Nat
  tCmd : Nat
  tClear : Nat
  deriving DecidableEq, Repr

/-- DisplayConfig, "five independent boolean feature flags" (R26). -/
structure DisplayConfig where
  displayOn : Bool
  cursor : Bool
  blink : Bool
  twoLine : Bool
  font5x10 : Bool
  deriving DecidableEq, Repr

/-- DriverState: the three sections of `CFG` (R20, R28); also the operand of `init` (R102). -/
structure DriverConfig where
  pin : PinConfig
  time : TimingConfig
  disp : DisplayConfig
  deriving DecidableEq, Repr

/-- The pattern operand of `create_glyph`: always 8 bytes, index 0 first (R102, R184), each an operand of `W_OPERAND` bits. -/
structure Pattern where
  p0 : Nat
  p1 : Nat
  p2 : Nat
  p3 : Nat
  p4 : Nat
  p5 : Nat
  p6 : Nat
  p7 : Nat
  deriving DecidableEq, Repr

/-- The instructions: every row of the opcode table. A reference operand is `none` when absent (D4). A scalar operand of a host
operation is an unsigned number of `W_OPERAND` bits (R32, R102, D3); the width is an open parameter (`Params.wOperand`), so the
bound is a check of `Instr.wellFormed` and of the decoder, not of the type. The primitives' values are bytes (R161, R162). -/
inductive Instr where
  /-- `init(config)` (41_initialization.md R140). -/
  | init (config : Option DriverConfig)
  /-- `clear()` (43_command_operations.md R181). -/
  | clear
  /-- `home()` (R182). -/
  | home
  /-- `set_cursor(row, column)` (R183). -/
  | setCursor (row column : Nat)
  /-- `write_char(c)` (R186). -/
  | writeChar (c : Nat)
  /-- `write_string(s)`: the elements before the end marker (R187). -/
  | writeString (s : Option (List Nat))
  /-- `create_glyph(slot, pattern)` (R184). -/
  | createGlyph (slot : Nat) (pattern : Option Pattern)
  /-- `set_display(flags)` (R185). -/
  | setDisplay (flags : Option DisplayConfig)
  /-- `pulse_enable()` (42_transfer_primitives.md R160). -/
  | pulseEnable
  /-- `write_nibble(value)`: 8 bits, of which bits 3..0 are used (R161). -/
  | writeNibble (value : Byte)
  /-- `write_byte(value, is_command)` (R162), as the frame `r b7..b0`: RS bit first, `true` = character data (R106). -/
  | writeByte (r : Bool) (value : Byte)
  /-- The clear command frame (30_encoding.md R108). -/
  | cmdClear
  /-- The home command frame (R109). -/
  | cmdHome
  /-- The function-set command frame (R110). -/
  | cmdFunctionSet (twoLine font5x10 : Bool)
  /-- The display-control command frame (R111). -/
  | cmdDisplayControl (displayOn cursor blink : Bool)
  /-- The set-CGRAM-address command frame of a slot (R112). -/
  | cmdSetCgram (slot : BitVec 3)
  /-- The set-DDRAM-address command frame (R113). -/
  | cmdSetDdram (addr : BitVec 7)
  /-- The data byte frame (R114). -/
  | data (value : Byte)
  /-- The resync nibble `0011` (R115). -/
  | resync8Bit
  /-- The resync nibble `0010` (R115). -/
  | resyncCommit4Bit
  /-- `return Success` (R103). -/
  | statusSuccess
  /-- `return InvalidParameter` (R103, 60_exceptions.md R221). -/
  | statusInvalidParameter
  /-- `Busy`: reserved, never produced (R103, R223). -/
  | statusBusy
  deriving DecidableEq, Repr

/-- The formats of the opcode table (30_encoding.md R100 to R103). -/
inductive Format where
  /-- A host request: a 3-bit selector, then operands (R101, R102). -/
  | host
  /-- The enable waveform, three levels of E in time order (R104). -/
  | ewave
  /-- The nibble frame, 4 bits (R105). -/
  | frame4
  /-- The byte frame, 9 bits (R106). -/
  | frame9
  /-- A byte frame read as one of the commands or as data (R107). -/
  | cmd9
  /-- A resync nibble (R115). -/
  | resync4
  /-- A status code, 2 bits (R103). -/
  | status
  deriving DecidableEq, Repr

/-- A word with its format: the bits of an instruction, bit 0 first. -/
structure Request where
  format : Format
  bits : List Bool
  deriving DecidableEq, Repr

end Sys2Proof
end

