-- ==== Sys2Proof/WellFormed.lean ====
section
/-! DEFINITION. Which instructions have an encoding: the side conditions the operand types do not already carry. -/

namespace Sys2Proof

/-- A number fits in `width` bits. -/
def fitsBits (width n : Nat) : Bool := decide (n < 2 ^ width)

/-- A scalar operand fits its width, `W_OPERAND` (R8, R32, D3). -/
def Params.fitsOperand (par : Params) (v : Nat) : Bool := fitsBits par.wOperand v

/-- A duration fits its register, `W_TIME`; unbounded, every natural number does (R8, R24, D3). -/
def Params.fitsTime (par : Params) (n : Nat) : Bool :=
  match par.wTime with
  | none => true
  | some width => fitsBits width n

/-- The four durations fit the timing registers (R8, R24). -/
def TimingConfig.fits (par : Params) (t : TimingConfig) : Bool :=
  par.fitsTime t.tPoweron && par.fitsTime t.tEnpulse && par.fitsTime t.tCmd && par.fitsTime t.tClear

/-- The eight pattern bytes fit their width. -/
def Pattern.fits (par : Params) (p : Pattern) : Bool :=
  par.fitsOperand p.p0 && par.fitsOperand p.p1 && par.fitsOperand p.p2 && par.fitsOperand p.p3 && par.fitsOperand p.p4 &&
    par.fitsOperand p.p5 && par.fitsOperand p.p6 && par.fitsOperand p.p7

/-- `i` is an instruction that a word can present. Operands and durations fit their widths (R8, D3); a string contains no end
marker, which is itself an element (R102, R187, D17); a nibble frame carries 4 bits, so a `write_nibble` operand has its
upper four clear (R105). All other operand limits are in the types, and the numeric ranges of R117 are checks the operations
make themselves. -/
def Instr.wellFormed (par : Params) (i : Instr) : Bool :=
  match i with
  | .init (some c) => TimingConfig.fits par c.time
  | .setCursor row column => par.fitsOperand row && par.fitsOperand column
  | .writeChar c => par.fitsOperand c
  | .writeString (some s) => s.all (fun b => par.fitsOperand b && b != par.stringEnd) && par.fitsOperand par.stringEnd
  | .createGlyph slot (some p) => par.fitsOperand slot && Pattern.fits par p
  | .createGlyph slot none => par.fitsOperand slot
  | .writeNibble value => value.toNat < 16
  | .init none => true
  | .clear => true
  | .home => true
  | .writeString none => true
  | .setDisplay _ => true
  | .pulseEnable => true
  | .writeByte _ _ => true
  | .cmdClear => true
  | .cmdHome => true
  | .cmdFunctionSet _ _ => true
  | .cmdDisplayControl _ _ _ => true
  | .cmdSetCgram _ => true
  | .cmdSetDdram _ => true
  | .data _ => true
  | .resync8Bit => true
  | .resyncCommit4Bit => true
  | .statusSuccess => true
  | .statusInvalidParameter => true
  | .statusBusy => true

end Sys2Proof
end

