-- ==== Sys2Proof/Decode.lean ====
section
/-! DEFINITION. The decoder from words to instructions, total and refusing by name, and the encoder
(30_encoding.md). Bits stand least significant first: the head of a list is bit 0 of the word, and the fields of a host
request follow the selector in the order of R102. The layout of naturals and PinRefs inside `init`, which R102 leaves
"opaque", is the model's (DESIGN CHOICE, safe: only the request's spelling depends on it; log entry 5). -/

namespace Sys2Proof

/-- Why a word decodes to no instruction. -/
inductive DecodeError where
  /-- The word ends before the instruction's last bit. -/
  | truncated
  /-- An enable waveform other than `0 1 0` (R104). -/
  | notEnableWaveform
  /-- A command byte that the block never sends (R116). -/
  | neverSentCommand
  /-- A nibble that is no resync nibble (R115). -/
  | notResyncNibble
  /-- Status code 3, which does not exist (R103, U13). -/
  | unusedStatusCode
  deriving DecidableEq, Repr

/-- The natural number whose bits, least significant first, are the list. -/
def natOfBits : List Bool → Nat
  | [] => 0
  | b :: bs => b.toNat + 2 * natOfBits bs

/-- The `n` low bits of a number, least significant first. -/
def bitsOfNat : Nat → Nat → List Bool
  | 0, _ => []
  | n + 1, w => (w % 2 == 1) :: bitsOfNat n (w / 2)

/-- A byte's eight bits, bit 0 first. -/
def byteBits (v : Byte) : List Bool :=
  [v.getLsbD 0, v.getLsbD 1, v.getLsbD 2, v.getLsbD 3, v.getLsbD 4, v.getLsbD 5, v.getLsbD 6, v.getLsbD 7]

/-- The byte with the given bits, bit 0 first. -/
def byteOfBits (b0 b1 b2 b3 b4 b5 b6 b7 : Bool) : Byte := BitVec.ofNat 8 (natOfBits [b0, b1, b2, b3, b4, b5, b6, b7])

/-- A natural number of no fixed width: each binary digit, least significant first, behind a 1; a 0 ends it. -/
def natBitsFuel : Nat → Nat → List Bool
  | 0, _ => [false]
  | fuel + 1, n => if n = 0 then [false] else true :: (n % 2 == 1) :: natBitsFuel fuel (n / 2)

/-- A natural number's bits; a number has fewer binary digits than its value, so the fuel suffices. -/
def natBits (n : Nat) : List Bool := natBitsFuel n n

/-- One bit off the word. -/
def takeBit : List Bool → Except DecodeError (Bool × List Bool)
  | b :: rest => .ok (b, rest)
  | [] => .error .truncated

/-- A number of the given width off the word, bit 0 first. -/
def takeBits : Nat → List Bool → Except DecodeError (Nat × List Bool)
  | 0, w => .ok (0, w)
  | n + 1, b :: w =>
    match takeBits n w with
    | .ok (v, w') => .ok (b.toNat + 2 * v, w')
    | .error e => .error e
  | _ + 1, [] => .error .truncated

/-- A natural number off the word. -/
def takeNat : List Bool → Except DecodeError (Nat × List Bool)
  | false :: rest => .ok (0, rest)
  | true :: b :: rest =>
    match takeNat rest with
    | .ok (n, rest') => .ok (b.toNat + 2 * n, rest')
    | .error e => .error e
  | _ => .error .truncated

/-- A scalar operand off the word: `W_OPERAND` bits (R102, D3). -/
def takeOperand (par : Params) (w : List Bool) : Except DecodeError (Nat × List Bool) := takeBits par.wOperand w

/-- A duration off the word: `W_TIME` bits, or a natural number of no fixed width (R8, D3). -/
def takeTime (par : Params) (w : List Bool) : Except DecodeError (Nat × List Bool) :=
  match par.wTime with
  | none => takeNat w
  | some width => takeBits width w

/-- A PinRef off the word: bank, then index (R21). -/
def takePinRef (w : List Bool) : Except DecodeError (PinRef × List Bool) := do
  let (bank, w) ← takeNat w
  let (index, w) ← takeNat w
  return (⟨bank, index⟩, w)

/-- RS, E, D[0] to D[3] (R102). -/
def takePinConfig (w : List Bool) : Except DecodeError (PinConfig × List Bool) := do
  let (rs, w) ← takePinRef w
  let (e, w) ← takePinRef w
  let (d0, w) ← takePinRef w
  let (d1, w) ← takePinRef w
  let (d2, w) ← takePinRef w
  let (d3, w) ← takePinRef w
  return (⟨rs, e, d0, d1, d2, d3⟩, w)

/-- T_POWERON, T_ENPULSE, T_CMD, T_CLEAR (R102). -/
def takeTimingConfig (par : Params) (w : List Bool) : Except DecodeError (TimingConfig × List Bool) := do
  let (tPoweron, w) ← takeTime par w
  let (tEnpulse, w) ← takeTime par w
  let (tCmd, w) ← takeTime par w
  let (tClear, w) ← takeTime par w
  return (⟨tPoweron, tEnpulse, tCmd, tClear⟩, w)

/-- DISPLAY_ON, CURSOR, BLINK, TWO_LINE, FONT_5X10, 1 bit each (R102). -/
def takeDisplayConfig (w : List Bool) : Except DecodeError (DisplayConfig × List Bool) := do
  let (displayOn, w) ← takeBit w
  let (cursor, w) ← takeBit w
  let (blink, w) ← takeBit w
  let (twoLine, w) ← takeBit w
  let (font5x10, w) ← takeBit w
  return (⟨displayOn, cursor, blink, twoLine, font5x10⟩, w)

/-- The operand of `init`: pins, timing, display (R102). -/
def takeDriverConfig (par : Params) (w : List Bool) : Except DecodeError (DriverConfig × List Bool) := do
  let (pin, w) ← takePinConfig w
  let (time, w) ← takeTimingConfig par w
  let (disp, w) ← takeDisplayConfig w
  return (⟨pin, time, disp⟩, w)

/-- The eight pattern bytes, index 0 first (R102). -/
def takePattern (par : Params) (w : List Bool) : Except DecodeError (Pattern × List Bool) := do
  let (p0, w) ← takeOperand par w
  let (p1, w) ← takeOperand par w
  let (p2, w) ← takeOperand par w
  let (p3, w) ← takeOperand par w
  let (p4, w) ← takeOperand par w
  let (p5, w) ← takeOperand par w
  let (p6, w) ← takeOperand par w
  let (p7, w) ← takeOperand par w
  return (⟨p0, p1, p2, p3, p4, p5, p6, p7⟩, w)

/-- The elements up to the end marker, which is taken off and not kept: the length is found by scanning (R118). -/
def takeStringFuel (par : Params) : Nat → List Bool → Except DecodeError (List Nat × List Bool)
  | 0, _ => .error .truncated
  | fuel + 1, w =>
    match takeOperand par w with
    | .error e => .error e
    | .ok (v, w') =>
      if v = par.stringEnd then .ok ([], w')
      else
        match takeStringFuel par fuel w' with
        | .ok (s, w'') => .ok (v :: s, w'')
        | .error e => .error e

/-- A string off the word. Every element but the marker takes at least one bit, so the fuel suffices. -/
def takeString (par : Params) (w : List Bool) : Except DecodeError (List Nat × List Bool) :=
  takeStringFuel par (w.length + 1) w

/-- A reference operand: the presence bit, then the content if present (R102, D4). -/
def takeOptional {α : Type} (content : List Bool → Except DecodeError (α × List Bool)) (w : List Bool) :
    Except DecodeError (Option α × List Bool) := do
  let (p, w) ← takeBit w
  if p then
    let (x, w) ← content w
    return (some x, w)
  else return (none, w)

/-- A host request: selector in bits 2..0 (R101), then the operands of R102. Bits after the last operand are not read. -/
def decodeHost (par : Params) : List Bool → Except DecodeError Instr
  | false :: false :: false :: w => do return .init (← takeOptional (takeDriverConfig par) w).1
  | true :: false :: false :: _ => .ok .clear
  | false :: true :: false :: _ => .ok .home
  | true :: true :: false :: w => do
    let (row, w) ← takeOperand par w
    let (column, _) ← takeOperand par w
    return .setCursor row column
  | false :: false :: true :: w => do return .writeChar (← takeOperand par w).1
  | true :: false :: true :: w => do return .writeString (← takeOptional (takeString par) w).1
  | false :: true :: true :: w => do
    let (slot, w) ← takeOperand par w
    let (pattern, _) ← takeOptional (takePattern par) w
    return .createGlyph slot pattern
  | true :: true :: true :: w => do return .setDisplay (← takeOptional takeDisplayConfig w).1
  | _ => .error .truncated

/-- The enable waveform: E low, high, low (R104). -/
def decodeEwave : List Bool → Except DecodeError Instr
  | false :: true :: false :: _ => .ok .pulseEnable
  | _ :: _ :: _ :: _ => .error .notEnableWaveform
  | _ => .error .truncated

/-- The nibble frame: n0 on D0 to n3 on D3 (R105). -/
def decodeFrame4 : List Bool → Except DecodeError Instr
  | b0 :: b1 :: b2 :: b3 :: _ => .ok (.writeNibble (byteOfBits b0 b1 b2 b3 false false false false))
  | _ => .error .truncated

/-- The byte frame: bits 7..0 the value, bit 8 the level of RS (R106). -/
def decodeFrame9 : List Bool → Except DecodeError Instr
  | b0 :: b1 :: b2 :: b3 :: b4 :: b5 :: b6 :: b7 :: r :: _ => .ok (.writeByte r (byteOfBits b0 b1 b2 b3 b4 b5 b6 b7))
  | _ => .error .truncated

/-- A byte frame read as one of the block's commands or as data, by the rows of R107. DESIGN CHOICE, safe: R107 gives each row
its pattern at the default of its `CMD_*` parameter and leaves open how a frame reads when a parameter has another value; the
decoder and `encode` keep the default patterns (0x01, 0x02, 0x20, 0x08, 0x40, 0x80) as the names of the rows whatever
`State.par` holds, while the row's meaning sends the byte assembled from `State.par` (R108 to R113), so that with other
values the byte sent is not the frame's own byte (log entry 25). -/
def decodeCmd9 : List Bool → Except DecodeError Instr
  | b0 :: b1 :: b2 :: b3 :: b4 :: b5 :: b6 :: b7 :: r :: _ =>
    if r then .ok (.data (byteOfBits b0 b1 b2 b3 b4 b5 b6 b7))
    else if b7 then .ok (.cmdSetDdram (BitVec.ofNat 7 (natOfBits [b0, b1, b2, b3, b4, b5, b6])))
    else if b6 then
      if b0 || b1 || b2 then .error .neverSentCommand else .ok (.cmdSetCgram (BitVec.ofNat 3 (natOfBits [b3, b4, b5])))
    else if b5 then
      if b0 || b1 || b4 then .error .neverSentCommand else .ok (.cmdFunctionSet b3 b2)
    else if b4 then .error .neverSentCommand
    else if b3 then .ok (.cmdDisplayControl b2 b1 b0)
    else if b2 then .error .neverSentCommand
    else if b1 then
      if b0 then .error .neverSentCommand else .ok .cmdHome
    else if b0 then .ok .cmdClear
    else .error .neverSentCommand
  | _ => .error .truncated

/-- A resync nibble: `0011` or `0010` (R115). -/
def decodeResync4 : List Bool → Except DecodeError Instr
  | true :: true :: false :: false :: _ => .ok .resync8Bit
  | false :: true :: false :: false :: _ => .ok .resyncCommit4Bit
  | _ :: _ :: _ :: _ :: _ => .error .notResyncNibble
  | _ => .error .truncated

/-- A status code: 0, 1 or 2; 3 is unused (R103). -/
def decodeStatus : List Bool → Except DecodeError Instr
  | false :: false :: _ => .ok .statusSuccess
  | true :: false :: _ => .ok .statusInvalidParameter
  | false :: true :: _ => .ok .statusBusy
  | true :: true :: _ => .error .unusedStatusCode
  | _ => .error .truncated

/-- The instruction a word stands for, under the open parameters `STRING_END`, `W_OPERAND` and `W_TIME`. -/
def decode (par : Params) (r : Request) : Except DecodeError Instr :=
  match r.format with
  | .host => decodeHost par r.bits
  | .ewave => decodeEwave r.bits
  | .frame4 => decodeFrame4 r.bits
  | .frame9 => decodeFrame9 r.bits
  | .cmd9 => decodeCmd9 r.bits
  | .resync4 => decodeResync4 r.bits
  | .status => decodeStatus r.bits

/-- A PinRef's bits. -/
def pinRefBits (p : PinRef) : List Bool := natBits p.bank ++ natBits p.index

/-- The six PinRefs in the order of R102. -/
def pinConfigBits (c : PinConfig) : List Bool :=
  pinRefBits c.rs ++ pinRefBits c.e ++ pinRefBits c.d0 ++ pinRefBits c.d1 ++ pinRefBits c.d2 ++ pinRefBits c.d3

/-- A scalar operand's bits (R102, D3). -/
def operandBits (par : Params) (v : Nat) : List Bool := bitsOfNat par.wOperand v

/-- A duration's bits (R8, D3). -/
def timeBits (par : Params) (n : Nat) : List Bool :=
  match par.wTime with
  | none => natBits n
  | some width => bitsOfNat width n

/-- The four durations in the order of R102. -/
def timingConfigBits (par : Params) (t : TimingConfig) : List Bool :=
  timeBits par t.tPoweron ++ timeBits par t.tEnpulse ++ timeBits par t.tCmd ++ timeBits par t.tClear

/-- The five flags in the order of R102. -/
def displayConfigBits (d : DisplayConfig) : List Bool := [d.displayOn, d.cursor, d.blink, d.twoLine, d.font5x10]

/-- The operand of `init`. -/
def driverConfigBits (par : Params) (c : DriverConfig) : List Bool :=
  pinConfigBits c.pin ++ timingConfigBits par c.time ++ displayConfigBits c.disp

/-- The eight pattern bytes, index 0 first. -/
def patternBits (par : Params) (p : Pattern) : List Bool :=
  operandBits par p.p0 ++ operandBits par p.p1 ++ operandBits par p.p2 ++ operandBits par p.p3 ++ operandBits par p.p4 ++
    operandBits par p.p5 ++ operandBits par p.p6 ++ operandBits par p.p7

/-- The elements, then the end marker. -/
def stringBits (par : Params) (s : List Nat) : List Bool :=
  s.flatMap (operandBits par) ++ operandBits par par.stringEnd

/-- A reference operand: presence bit, then the content. -/
def optionalBits {α : Type} (content : α → List Bool) : Option α → List Bool
  | some x => true :: content x
  | none => [false]

/-- The word of an instruction, in its row's format. The command frames keep the patterns of R107 (log entry 25). -/
def encode (par : Params) (i : Instr) : Request :=
  match i with
  | .init config => ⟨.host, [false, false, false] ++ optionalBits (driverConfigBits par) config⟩
  | .clear => ⟨.host, [true, false, false]⟩
  | .home => ⟨.host, [false, true, false]⟩
  | .setCursor row column => ⟨.host, [true, true, false] ++ operandBits par row ++ operandBits par column⟩
  | .writeChar c => ⟨.host, [false, false, true] ++ operandBits par c⟩
  | .writeString s => ⟨.host, [true, false, true] ++ optionalBits (stringBits par) s⟩
  | .createGlyph slot pattern => ⟨.host, [false, true, true] ++ operandBits par slot ++ optionalBits (patternBits par) pattern⟩
  | .setDisplay flags => ⟨.host, [true, true, true] ++ optionalBits displayConfigBits flags⟩
  | .pulseEnable => ⟨.ewave, [false, true, false]⟩
  | .writeNibble v => ⟨.frame4, [v.getLsbD 0, v.getLsbD 1, v.getLsbD 2, v.getLsbD 3]⟩
  | .writeByte r v => ⟨.frame9, byteBits v ++ [r]⟩
  | .cmdClear => ⟨.cmd9, bitsOfNat 9 0x001⟩
  | .cmdHome => ⟨.cmd9, bitsOfNat 9 0x002⟩
  | .cmdFunctionSet n f => ⟨.cmd9, [false, false, f, n, false, true, false, false, false]⟩
  | .cmdDisplayControl d c b => ⟨.cmd9, [b, c, d, true, false, false, false, false, false]⟩
  | .cmdSetCgram s => ⟨.cmd9, [false, false, false, s.getLsbD 0, s.getLsbD 1, s.getLsbD 2, true, false, false]⟩
  | .cmdSetDdram a => ⟨.cmd9, [a.getLsbD 0, a.getLsbD 1, a.getLsbD 2, a.getLsbD 3, a.getLsbD 4, a.getLsbD 5, a.getLsbD 6,
      true, false]⟩
  | .data v => ⟨.cmd9, byteBits v ++ [true]⟩
  | .resync8Bit => ⟨.resync4, bitsOfNat 4 0x3⟩
  | .resyncCommit4Bit => ⟨.resync4, bitsOfNat 4 0x2⟩
  | .statusSuccess => ⟨.status, bitsOfNat 2 0⟩
  | .statusInvalidParameter => ⟨.status, bitsOfNat 2 1⟩
  | .statusBusy => ⟨.status, bitsOfNat 2 2⟩

/-- How many bits a frame of the format has (R103 to R107, R115); a host request has at least its selector's 3. -/
def frameWidth : Format → Nat
  | .host => 3
  | .ewave => 3
  | .frame4 => 4
  | .frame9 => 9
  | .cmd9 => 9
  | .resync4 => 4
  | .status => 2

/-- The format of an opcode-table word that is known only by its length. The table's words carry no format: 2, 3, 4 and 9
bits name STATUS, HOST, RESYNC4 and CMD9; in whole bytes, two bytes are a byte frame and one byte is read as a host
request (DESIGN CHOICE, safe; log entry 6). -/
def tableFormat (nbits : Nat) : Format :=
  if nbits = 2 then .status
  else if nbits = 4 then .resync4
  else if nbits = 9 ∨ nbits = 16 then .cmd9
  else .host

/-- A table word laid out whole: its own bits, then zeros up to the longest instruction whose remaining
operand bits are all zero (`create_glyph`, 76 bits). -/
def tableRequest (nbits w : Nat) : Request := ⟨tableFormat nbits, bitsOfNat nbits w ++ List.replicate 80 false⟩

/-- The instruction the decoder reads from a table word, bits numbered as spec/opcode_table.json numbers them. -/
def decodeTableWord (nbits w : Nat) : Option Instr :=
  match decode Config.defaults (tableRequest nbits w) with
  | .ok i => some i
  | .error _ => none

end Sys2Proof
end

