-- ==== Sys2Proof/Machine/State.lean ====
section
/-! DEFINITION. The machine's state: everything 10_state.md gives the block, the ghost logs of 20_memory.md, the
reference observer of the attached controller (20_memory.md section 6), the host's presented requests, and the open
parameters. Plain data throughout. -/

namespace Sys2Proof.Machine

/-- The six lines (R30). -/
inductive Line where
  | rs
  | e
  | d0
  | d1
  | d2
  | d3
  deriving DecidableEq, Repr

/-- A latch's mode; `output` stands for "direction = output, pull = none, drive = push-pull" (R30). -/
inductive LineMode where
  | unconfigured
  | output
  deriving DecidableEq, Repr

/-- A latch's level; `unknown` is the spec's own third value (R30). -/
inductive LineLevel where
  | low
  | high
  | unknown
  deriving DecidableEq, Repr

/-- `LINE[l]` (R30). -/
structure Latch where
  mode : LineMode
  level : LineLevel
  deriving DecidableEq, Repr

/-- The six line latches (R20, R30). -/
structure Lines where
  rs : Latch
  e : Latch
  d0 : Latch
  d1 : Latch
  d2 : Latch
  d3 : Latch
  deriving DecidableEq, Repr

/-- `STATUS` (R34, R103). -/
inductive Status where
  | success
  | invalidParameter
  | busy
  deriving DecidableEq, Repr

/-- One request to the collaborator (R35, R121). -/
inductive Event where
  | cfgOut (p : PinRef)
  | write (p : PinRef) (v : Level)
  | delayMs (n : Nat)
  | delayUs (n : Nat)
  deriving DecidableEq, Repr

/-- One entry of the nibble log: the level of RS and the value put on D3..D0 (R76). -/
structure NibbleEntry where
  rs : LineLevel
  value : Nibble
  deriving DecidableEq, Repr

/-- What a byte transfer carries (R77). -/
inductive ByteKind where
  | cmd
  | data
  deriving DecidableEq, Repr

/-- One entry of the byte log (R77). -/
structure ByteEntry where
  kind : ByteKind
  value : Byte
  deriving DecidableEq, Repr

/-- The sequencer position: idle, or the operation in progress with its operands (the operand latches of R32) and the
index of its next event (R33). `internal` is the model's own: the block's next act is the word of one of the layers below the
host's surface (R2, R100), taken by itself. "Nothing outside the block can read `SEQ` or set it" (R33), so the host cannot ask
for such a word (R164); no step leaves one behind. DESIGN CHOICE, safe (log entry 7). -/
inductive Seq where
  | idle
  | running (op : Instr) (next : Nat)
  | internal (w : Request)
  deriving DecidableEq, Repr

/-- `LCD.IF` (R80). -/
inductive LcdInterface where
  | unknown
  | fourBit
  deriving DecidableEq, Repr

/-- `LCD.MODE` (R80). -/
inductive LcdMode where
  | unknown
  | ddram
  | cgram
  deriving DecidableEq, Repr

/-- Memory of the attached controller: (address, byte) pairs, addresses strictly rising. An address that is not listed
is `unknown`, the spec's own value (R80); no listed byte is that, so equal memories are equal lists. -/
abbrev Memory := List Host.Cell

/-- The reference observer of the attached controller (R80). `none` is the spec's `unknown`. -/
structure Lcd where
  /-- `LCD.IF`. -/
  iface : LcdInterface
  /-- `LCD.MODE`. -/
  mode : LcdMode
  /-- `LCD.AC`: 7 bits in ddram mode, 6 in cgram mode. -/
  ac : Option (BitVec 7)
  /-- `LCD.DDRAM[a]`, for the 32 on-screen addresses. -/
  ddram : Memory
  /-- `LCD.CGRAM[s][i]`, at key `8*s + i`, a 5-bit value. -/
  cgram : Memory
  /-- `LCD.ON`. -/
  on : Option Bool
  /-- `LCD.CURSOR`. -/
  cursor : Option Bool
  /-- `LCD.BLINK`. -/
  blink : Option Bool
  /-- `LCD.TWO_LINE`. -/
  twoLine : Option Bool
  /-- `LCD.FONT_5X10`. -/
  font5x10 : Option Bool
  deriving DecidableEq, Repr

/-- Everything the spec gives the machine. -/
structure State where
  /-- `CFG` (R20, R22, R24, R26, R28). -/
  cfg : DriverConfig
  /-- `LINE` (R30). -/
  line : Lines
  /-- `SEQ` with the operand latches (R32, R33). -/
  seq : Seq
  /-- `STATUS` (R34). -/
  status : Status
  /-- `READY`, ghost (R29). -/
  ready : Bool
  /-- `TRACE`, ghost, oldest first (R35). -/
  trace : List Event
  /-- `NIBLOG`, ghost, oldest first (R76). -/
  nibLog : List NibbleEntry
  /-- `BYTELOG`, ghost, oldest first (R77). -/
  byteLog : List ByteEntry
  /-- The attached controller as the reference observer sees it (R80). -/
  lcd : Lcd
  /-- The model's own: the requests presented and not yet taken, oldest first (R6, R101, R119; log entry 1). A request is the
  bits of a host request, selector first, and has no other format: what the host can present at all is one of the eight
  operations (R101, R164). -/
  inbox : List (List Bool)
  /-- The model's own place for the open parameters (R8; log entry 4); no step writes it. -/
  par : Params
  deriving DecidableEq, Repr

/-- Why a step can fault: never. "No hardware fault exists" (60_exceptions.md R222), so the type has no constructor. -/
inductive Fault where
  deriving DecidableEq, Repr

/-- Why a step has no meaning. All of these are safe: the model stops where the spec gives the run no meaning. -/
inductive Refusal where
  /-- Raised by an arm of `exec` for an instruction with no meaning yet; no arm does so now. Safe. -/
  | notModelled (mnemonic : String)
  /-- Raised by `step`: the word is no instruction; of a host request, that it ends early. Safe. -/
  | undecodable (e : DecodeError)
  /-- Raised by every host operation but `init` while READY is false (R29, D5, U7). Safe. -/
  | notReady
  /-- Raised by every instruction while an operation is in progress (R72, D22, U4). Safe. -/
  | operationInProgress
  /-- Raised by every transfer while some line is not an output (R23, R31, R164). Safe. -/
  | linesNotConfigured
  /-- Raised by `init` with two equal PinRefs (R22, D19, U8). Safe. -/
  | sharedPins
  /-- Raised by `STATUS_Busy`, which is reserved and never produced (R103, R223, U5). Safe. -/
  | busyReserved
  /-- Raised by `start` for what is no host operation (R164). No step needs it: `inbox` has no place for one. Safe. -/
  | notHostOperation
  deriving DecidableEq, Repr

/-- A zero-valued PinRef (R37). DESIGN CHOICE, unsafe: the pair (0, 0) (log entry 3). -/
def PinRef.zero : PinRef := ⟨0, 0⟩

/-- A line at reset: unconfigured, level unknown (R37, D27). -/
def Latch.reset : Latch := ⟨.unconfigured, .unknown⟩

/-- The attached controller with every field unknown: at power-up (R37, R80) and wherever the observer gives up. -/
def Lcd.allUnknown : Lcd where
  iface := .unknown
  mode := .unknown
  ac := none
  ddram := []
  cgram := []
  on := none
  cursor := none
  blink := none
  twoLine := none
  font5x10 := none

/-- The machine right after program start (R37, R250). DESIGN CHOICE, unsafe: `status` is Success, which the spec leaves
unspecified (log entry 2). DESIGN CHOICE, safe: `inbox` is empty (log entry 1). -/
def State.reset : State where
  cfg := ⟨⟨PinRef.zero, PinRef.zero, PinRef.zero, PinRef.zero, PinRef.zero, PinRef.zero⟩, ⟨0, 0, 0, 0⟩,
    ⟨false, false, false, false, false⟩⟩
  line := ⟨Latch.reset, Latch.reset, Latch.reset, Latch.reset, Latch.reset, Latch.reset⟩
  seq := .idle
  status := .success
  ready := false
  trace := []
  nibLog := []
  byteLog := []
  lcd := Lcd.allUnknown
  inbox := []
  par := Config.defaults

end Sys2Proof.Machine
end

