-- ==== Sys2Proof/Machine/Flags.lean ====
section
/-! DEFINITION. The block has no condition codes (10_state.md R34). The flags it computes with are the five display
flags, which go into the function-set and display-control bytes (30_encoding.md R110, R111), and the levels. -/

namespace Sys2Proof.Machine

/-- A flag at bit `k` of a byte (R110, R111, R9). -/
def flagBit (b : Bool) (k : Nat) : Byte := if b then 1#8 <<< k else 0#8

/-- The function-set command byte (R110): bus width 0 at bit 4, lines at bit 3, font at bit 2. PRESUMED by the spec, unsafe: the
layout is its "general knowledge" (D14; log entry 12). -/
def functionSet (par : Params) (twoLine font5x10 : Bool) : Byte :=
  par.cmdFunctionSet ||| flagBit false 4 ||| flagBit twoLine 3 ||| flagBit font5x10 2

/-- The display-control command byte (R111): display at bit 2, cursor at bit 1, blink at bit 0. PRESUMED by the spec, unsafe
(D14; log entry 12). -/
def displayControl (par : Params) (displayOn cursor blink : Bool) : Byte :=
  par.cmdDisplayControl ||| flagBit displayOn 2 ||| flagBit cursor 1 ||| flagBit blink 0

/-- The level of a bit: 1 is high, 0 is low (R9, R66). -/
def levelOfBit (b : Bool) : Level := if b then .high else .low

/-- A driven level as the level a latch holds (R30). -/
def Level.toLine : Level → LineLevel
  | .low => .low
  | .high => .high

/-- The level RS is set to: low for a command, high for character data (R106, R162). -/
def ByteKind.rsLevel : ByteKind → Level
  | .cmd => .low
  | .data => .high

end Sys2Proof.Machine
end

