-- ==== Sys2Proof/Machine/Operands.lean ====
section
/-! DEFINITION. Operands: the nibbles of a byte, row and column translation, command bytes with an address, and the parts
of the configuration an operation names. -/

namespace Sys2Proof.Machine

/-- `hi(v) = v[7:4]` (R9). -/
def hiNibble (v : Byte) : Nibble := v.extractLsb' 4 4

/-- `lo(v) = v[3:0]` (R9). -/
def loNibble (v : Byte) : Nibble := v.extractLsb' 0 4

/-- `ROW_BASE[0]` = 0x00 and `ROW_BASE[1]` = 0x40 (20_memory.md R61). -/
def rowBase (row : Nat) : BitVec 7 := if row = 0 then 0x00 else 0x40

/-- `ddram_addr(row, column)`; no address outside 2 rows and 16 columns (R62). The check does not read TWO_LINE (C8). -/
def ddramAddr (row column : Nat) : Option (BitVec 7) :=
  if row ≥ Config.nRows ∨ column ≥ Config.nCols then none else some (rowBase row + BitVec.ofNat 7 column)

/-- The set-DDRAM-address command byte (30_encoding.md R113); the address field's place is the spec's general knowledge (log
entry 12). -/
def setDdram (par : Params) (addr : BitVec 7) : Byte := par.cmdSetDdram ||| addr.setWidth 8

/-- The set-CGRAM-address command byte of a slot (R112, D15; log entry 12). -/
def setCgram (par : Params) (slot : Nat) : Byte := par.cmdSetCgram ||| BitVec.ofNat 8 (slot <<< 3)

/-- The byte that a data operand puts on the bus (R114). DEDUCED, unsafe: with `W_OPERAND` above 8 it is bits 7..0, since
`write_byte` sends `value[7:4]` and `value[3:0]` and nothing more (R162, D3; log entry 19). -/
abbrev operandByte (v : Nat) : Byte := BitVec.ofNat 8 v

/-- The pattern bytes in the order they are sent (R67, D16). -/
def Pattern.toList (p : Pattern) : List Nat := [p.p0, p.p1, p.p2, p.p3, p.p4, p.p5, p.p6, p.p7]

/-- `CFG.PIN.l` (R22). -/
def PinConfig.ofLine (c : PinConfig) : Line → PinRef
  | .rs => c.rs
  | .e => c.e
  | .d0 => c.d0
  | .d1 => c.d1
  | .d2 => c.d2
  | .d3 => c.d3

/-- The six PinRefs in the order PinConfig lists them (R22). -/
def PinConfig.toList (c : PinConfig) : List PinRef := [c.rs, c.e, c.d0, c.d1, c.d2, c.d3]

/-- The six PinRefs are pairwise different, which a configuration must satisfy to be admitted (R22, D19). -/
def PinConfig.distinct (c : PinConfig) : Bool := decide (PinConfig.toList c).Nodup

/-- The elements of a string before its end marker, which are the ones sent (R187). DEDUCED, unsafe: an operand that holds the
marker, which no word can present, is cut there as the loop of R187 does (D17; log entry 18). -/
def stringElements (stop : Nat) (s : List Nat) : List Nat := s.takeWhile (fun b => b != stop)

end Sys2Proof.Machine
end

