-- ==== Sys2Proof/Machine/Observer.lean ====
section
/-! DEFINITION. The attached controller's memory, and the reference observer's reaction to what the block sends
(20_memory.md R80 to R86). -/

namespace Sys2Proof.Machine

/-- The byte at an address; `none` is unknown. -/
def Memory.read : Memory → Nat → Option Byte
  | [], _ => none
  | c :: m, a => if c.1 = a then some c.2 else Memory.read m a

/-- `MemWrite` (R85): the byte at `a` becomes `v`, the list stays sorted. -/
def Memory.write : Memory → Nat → Byte → Memory
  | [], a, v => [(a, v)]
  | c :: m, a, v => if a < c.1 then (a, v) :: c :: m else if a = c.1 then (a, v) :: m else c :: Memory.write m a v

/-- The canonical form: addresses strictly rising. -/
abbrev Memory.wf (m : Memory) : Prop := m.Pairwise (fun x y => x.1 < y.1)

/-- The on-screen DDRAM addresses: 0x00 to 0x0F and 0x40 to 0x4F (R61). -/
def onScreen (a : Nat) : Bool := decide (a < 0x10) || (decide (0x40 ≤ a) && decide (a < 0x50))

/-- All 32 on-screen cells at one value (R84, clear display). -/
def clearedDdram (blank : Byte) : Memory :=
  (List.range 16).map (fun i => (i, blank)) ++ (List.range 16).map (fun i => (0x40 + i, blank))

/-- `TimingSane(CFG)` (R86, D30). -/
def TimingConfig.sane (t : TimingConfig) : Bool := decide (Config.tCmdMin ≤ t.tCmd) && decide (Config.tClearMin ≤ t.tClear)

/-- Every DDRAM and CGRAM cell unknown: a data byte at an unknown place (R85). -/
def Lcd.forgetCells (l : Lcd) : Lcd := { l with ddram := [], cgram := [] }

/-- A command byte in 4-bit mode, found from its highest set bit (R84). PRESUMED by the spec, unsafe: the decoding and the
effects of clear and home are its "general knowledge" (D26; log entry 15). -/
def Lcd.command (blank : Byte) (v : Byte) (l : Lcd) : Lcd :=
  if v.getLsbD 7 then { l with mode := .ddram, ac := some (v.extractLsb' 0 7) }
  else if v.getLsbD 6 then { l with mode := .cgram, ac := some ((v.extractLsb' 0 6).setWidth 7) }
  else if v.getLsbD 5 then
    if v.getLsbD 3 && v.getLsbD 2 then { l with twoLine := none, font5x10 := none }
    else { l with twoLine := some (v.getLsbD 3), font5x10 := some (v.getLsbD 2) }
  else if v.getLsbD 4 then Lcd.allUnknown
  else if v.getLsbD 3 then { l with on := some (v.getLsbD 2), cursor := some (v.getLsbD 1), blink := some (v.getLsbD 0) }
  else if v.getLsbD 2 then Lcd.allUnknown
  else if v.getLsbD 1 then { l with mode := .ddram, ac := some 0 }
  else if v.getLsbD 0 then { l with ddram := clearedDdram blank, mode := .ddram, ac := some 0 }
  else Lcd.allUnknown

/-- The address after a data byte in ddram mode: the next one if it is on screen (then it is in the same row), else
unknown (R85, D24). -/
def nextDdramAddr (a : BitVec 7) : Option (BitVec 7) := if onScreen (a.toNat + 1) then some (a + 1) else none

/-- The address after a data byte in cgram mode (R85). -/
def nextCgramAddr (a : BitVec 7) : Option (BitVec 7) := if a.toNat < 63 then some (a + 1) else none

/-- A data byte in 4-bit mode (R85). CGRAM keeps the five low bits. DEDUCED, unsafe: at a known address that is not on screen
every cell becomes unknown and the address stays, as the rule's last branch has it (log entry 14). -/
def Lcd.dataByte (v : Byte) (l : Lcd) : Lcd :=
  match l.mode, l.ac with
  | .ddram, some a =>
    if onScreen a.toNat then { l with ddram := Memory.write l.ddram a.toNat v, ac := nextDdramAddr a } else l.forgetCells
  | .cgram, some a =>
    if a.toNat < 64 then { l with cgram := Memory.write l.cgram a.toNat (v &&& 0x1F), ac := nextCgramAddr a }
    else l.forgetCells
  | _, _ => l.forgetCells

/-- A byte transfer as the observer sees it: everything unknown while the timing is not sane (R86) or the interface is
not known to be in 4-bit mode (R82); else R84 or R85. -/
def Lcd.byte (blank : Byte) (t : TimingConfig) (e : ByteEntry) (l : Lcd) : Lcd :=
  if TimingConfig.sane t && decide (l.iface = .fourBit) then
    match e.kind with
    | .cmd => Lcd.command blank e.value l
    | .data => Lcd.dataByte e.value l
  else Lcd.allUnknown

/-- The resync sequence just emitted in full, RS having been at `rs` throughout (R82): 4-bit mode and in phase if RS was
low and the timing is sane, else the interface is unknown. No other field changes. DEDUCED, safe: an interface that was known
before becomes unknown in the second case (D23; log entry 13). -/
def Lcd.resync (t : TimingConfig) (rs : LineLevel) (l : Lcd) : Lcd :=
  { l with iface := if TimingConfig.sane t && decide (rs = .low) then .fourBit else .unknown }

end Sys2Proof.Machine
end

