-- ==== Sys2Proof/Machine/Ops.lean ====
section
/-! DEFINITION. The named operations: lines, one event at a time, the sequences of events the transfers are made of, the
checks before an operation, and the delivery of a status (what stands for taking an exception and returning from it,
60_exceptions.md R226, R227). -/

namespace Sys2Proof.Machine

/-- The outcome of one instruction or step. -/
abbrev Result := Host.Outcome State Fault Refusal

/-- `LINE[l]`. -/
def Lines.get (ls : Lines) : Line → Latch
  | .rs => ls.rs
  | .e => ls.e
  | .d0 => ls.d0
  | .d1 => ls.d1
  | .d2 => ls.d2
  | .d3 => ls.d3

/-- `LINE[l] <- x`. -/
def Lines.set (ls : Lines) (l : Line) (x : Latch) : Lines :=
  match l with
  | .rs => { ls with rs := x }
  | .e => { ls with e := x }
  | .d0 => { ls with d0 := x }
  | .d1 => { ls with d1 := x }
  | .d2 => { ls with d2 := x }
  | .d3 => { ls with d3 := x }

/-- All six lines are outputs: what must hold before any transfer (R23, R31). -/
def Lines.allOutput (ls : Lines) : Bool :=
  ls.rs.mode = .output && ls.e.mode = .output && ls.d0.mode = .output && ls.d1.mode = .output && ls.d2.mode = .output &&
    ls.d3.mode = .output

/-- What an operation asks of the collaborator, before the configuration says which pin a line is (00_scope.md 6.1). -/
inductive Action where
  /-- `configure_output(l)`. -/
  | configureOutput (l : Line)
  /-- `set_output(l, v)`. -/
  | setOutput (l : Line) (v : Level)
  /-- `delay_ms(n)`. -/
  | delayMs (n : Nat)
  /-- `delay_us(n)`. -/
  | delayUs (n : Nat)
  deriving DecidableEq, Repr

/-- What is recorded when an event completes; the hardware keeps none of it (R76, R77, R80). -/
inductive Note where
  /-- Nothing. -/
  | none
  /-- A `write_nibble` completes (R161). -/
  | nibble (n : Nibble)
  /-- The last nibble of the resync sequence completes (R82). -/
  | resynced (n : Nibble)
  /-- A `write_nibble` completes that is neither half a byte nor part of a resync sequence (log entry 8). -/
  | strayNibble (n : Nibble)
  /-- A bare enable pulse completes (log entry 8). -/
  | strayPulse
  /-- A `write_byte` completes (R162). -/
  | byte (e : ByteEntry)
  deriving DecidableEq, Repr

/-- One event of an operation's expansion and what is recorded at its end. -/
structure Micro where
  act : Action
  note : Note
  deriving DecidableEq, Repr

/-- The event of an action under a pin configuration (R35, R121). -/
def Action.event (pins : PinConfig) : Action → Event
  | .configureOutput l => .cfgOut (PinConfig.ofLine pins l)
  | .setOutput l v => .write (PinConfig.ofLine pins l) v
  | .delayMs n => .delayMs n
  | .delayUs n => .delayUs n

/-- The latches after an action (R31). -/
def Action.onLines (configLevel : Level) (ls : Lines) : Action → Lines
  | .configureOutput l => Lines.set ls l ⟨.output, Level.toLine configLevel⟩
  | .setOutput l v => Lines.set ls l ⟨(Lines.get ls l).mode, Level.toLine v⟩
  | .delayMs _ => ls
  | .delayUs _ => ls

/-- `NIBLOG <- NIBLOG ++ [(LINE[RS].level, n)]` (R161). -/
def State.logNibble (s : State) (n : Nibble) : State := { s with nibLog := s.nibLog ++ [⟨s.line.rs.level, n⟩] }

/-- `BYTELOG <- BYTELOG ++ [e]` (R162). -/
def State.logByte (s : State) (e : ByteEntry) : State := { s with byteLog := s.byteLog ++ [e] }

/-- The observer moves on. -/
def State.setLcd (s : State) (l : Lcd) : State := { s with lcd := l }

/-- An event is emitted: it takes effect on the latches and stands at the end of the trace (R31, R35). -/
def State.push (s : State) (a : Action) : State :=
  { s with line := a.onLines s.par.configLevel s.line, trace := s.trace ++ [a.event s.cfg.pin] }

/-- Records a completed event's note. -/
def State.record (s : State) : Note → State
  | .none => s
  | .nibble n => s.logNibble n
  | .resynced n => (s.logNibble n).setLcd (Lcd.resync s.cfg.time s.line.rs.level s.lcd)
  | .strayNibble n => (s.logNibble n).setLcd Lcd.allUnknown
  | .strayPulse => s.setLcd Lcd.allUnknown
  | .byte e => (s.logByte e).setLcd (Lcd.byte s.par.blank s.cfg.time e s.lcd)

/-- One event, with its note. -/
def emit (s : State) (m : Micro) : State := (s.push m.act).record m.note

/-- A sequence of events, first to last (R72). -/
def runMicros (ms : List Micro) (s : State) : State := ms.foldl emit s

/-- An action with nothing to record. -/
def Action.plain (a : Action) : Micro := ⟨a, .none⟩

/-- `pulse_enable()`; `note` is recorded at its last event (R104, R160). -/
def pulseMicros (t : TimingConfig) (note : Note) : List Micro :=
  [(Action.setOutput .e .low).plain, (Action.delayUs Config.tEsetup).plain, (Action.setOutput .e .high).plain,
    (Action.delayUs t.tEnpulse).plain, ⟨.setOutput .e .low, note⟩]

/-- `write_nibble(n)` (R105, R161): bit 0 on D0 first to bit 3 on D3, then the pulse. -/
def nibbleMicros (t : TimingConfig) (n : Nibble) (note : Note) : List Micro :=
  [(Action.setOutput .d0 (levelOfBit (n.getLsbD 0))).plain, (Action.setOutput .d1 (levelOfBit (n.getLsbD 1))).plain,
    (Action.setOutput .d2 (levelOfBit (n.getLsbD 2))).plain, (Action.setOutput .d3 (levelOfBit (n.getLsbD 3))).plain] ++
    pulseMicros t note

/-- `write_byte(v, is_command)` (R106, R162). -/
def byteMicros (t : TimingConfig) (kind : ByteKind) (v : Byte) : List Micro :=
  [(Action.setOutput .rs kind.rsLevel).plain] ++ nibbleMicros t (hiNibble v) (.nibble (hiNibble v)) ++
    nibbleMicros t (loNibble v) (.nibble (loNibble v)) ++ [⟨.delayUs t.tCmd, .byte ⟨kind, v⟩⟩]

/-- `resync()` (R141): the nibbles 3, 3, 3, 2 with their waits, and `T_MODE_COMMIT` if there is one (D9). -/
def resyncMicros (par : Params) (t : TimingConfig) : List Micro :=
  nibbleMicros t 0x3 (.nibble 0x3) ++ [(Action.delayUs Config.tResyncLong).plain] ++
    nibbleMicros t 0x3 (.nibble 0x3) ++ [(Action.delayUs Config.tResyncLong).plain] ++
    nibbleMicros t 0x3 (.nibble 0x3) ++ [(Action.delayUs Config.tResyncShort).plain] ++
    nibbleMicros t 0x2 (.resynced 0x2) ++ (par.tModeCommit.map fun n => (Action.delayUs n).plain).toList

/-- `clear_sequence()` (R181). -/
def clearMicros (par : Params) (t : TimingConfig) : List Micro :=
  byteMicros t .cmd par.cmdClear ++ [(Action.delayUs t.tClear).plain]

/-- The six `configure_output` of `init`, in the order RS, E, D0, D1, D2, D3 (R140, D6). -/
def configureMicros : List Micro :=
  [(Action.configureOutput .rs).plain, (Action.configureOutput .e).plain, (Action.configureOutput .d0).plain,
    (Action.configureOutput .d1).plain, (Action.configureOutput .d2).plain, (Action.configureOutput .d3).plain]

/-- `return S`: the status goes to the host and the sequencer is idle again (R33, R34). With InvalidParameter this is all a
failure does: nothing is saved and control goes to no handler (R226); the next operation needs no return (R227). -/
def State.deliver (s : State) (st : Status) : State := { s with status := st, seq := .idle }

/-- `CFG <- config` (R140). -/
def State.storeConfig (s : State) (c : DriverConfig) : State := { s with cfg := c }

/-- `CFG.DISP <- flags`; the other sections stay (R185). -/
def State.storeDisplay (s : State) (d : DisplayConfig) : State := { s with cfg := { s.cfg with disp := d } }

/-- `READY <- true` (R140). -/
def State.setReady (s : State) : State := { s with ready := true }

/-- The sequencer position moves (R33). -/
def State.setSeq (s : State) (q : Seq) : State := { s with seq := q }

/-- The presented requests that remain. -/
def State.setInbox (s : State) (ws : List (List Bool)) : State := { s with inbox := ws }

/-- A failed parameter check: InvalidParameter, and no other effect (R226). -/
def invalidParameter (s : State) : Result := .next (s.deliver .invalidParameter)

/-- No second operation while one is in progress (R72, D22). -/
def whenIdle (s : State) (k : Result) : Result :=
  match s.seq with
  | .idle => k
  | .running _ _ => .refused .operationInProgress
  | .internal _ => .refused .operationInProgress

/-- Every host operation but `init` requires READY (R29, R180). -/
def whenReady (s : State) (k : Result) : Result := if s.ready then k else .refused .notReady

/-- A transfer requires every line to be an output (R23, R31). -/
def whenConfigured (s : State) (k : Result) : Result := if s.line.allOutput then k else .refused .linesNotConfigured

/-- An internal transfer on its own: no status, it cannot fail (R160 to R162). -/
def transfer (s : State) (ms : List Micro) : Result := whenIdle s (whenConfigured s (.next (runMicros ms s)))

/-- A host operation other than `init` (R180): no expansion means a failed check; else the whole expansion, what is stored
after it, and Success. -/
def hostOperation (s : State) (expansion : Option (List Micro)) (store : State → State) : Result :=
  whenIdle s (whenReady s (match expansion with
    | none => invalidParameter s
    | some ms => whenConfigured s (.next ((store (runMicros ms s)).deliver .success))))

end Sys2Proof.Machine
end

