-- ==== Sys2Proof/Machine/Command.lean ====
section
/-! DEFINITION. The seven host operations besides `init` (43_command_operations.md): for each its expansion, where `none`
is a failed parameter check (60_exceptions.md R221), and its meaning. -/

namespace Sys2Proof.Machine

/-- `home` (R182): one `T_CMD` wait, a second one only with `HOME_EXTRA_DELAY` (D12, C5). -/
def homeMicros (par : Params) (t : TimingConfig) : List Micro :=
  byteMicros t .cmd par.cmdHome ++ (if par.homeExtraDelay then [(Action.delayUs t.tCmd).plain] else [])

/-- `set_cursor` (R183). -/
def setCursorMicros (par : Params) (t : TimingConfig) (row column : Nat) : Option (List Micro) :=
  (ddramAddr row column).map fun a => byteMicros t .cmd (setDdram par a)

/-- `write_char` (R186). -/
def writeCharMicros (t : TimingConfig) (c : Nat) : List Micro := byteMicros t .data (operandByte c)

/-- `write_string` (R187): `write_char` of each element before the end marker. -/
def writeStringMicros (par : Params) (t : TimingConfig) (s : Option (List Nat)) : Option (List Micro) :=
  s.map fun bs => (stringElements par.stringEnd bs).flatMap (writeCharMicros t)

/-- `create_glyph` (R184): the address command, the eight bytes unmasked, the restore to DDRAM address 0. -/
def createGlyphMicros (par : Params) (t : TimingConfig) (slot : Nat) (pattern : Option Pattern) : Option (List Micro) :=
  if slot ≥ Config.nSlots then none
  else pattern.map fun p =>
    byteMicros t .cmd (setCgram par slot) ++ (Pattern.toList p).flatMap (fun v => byteMicros t .data (operandByte v)) ++
      byteMicros t .cmd (setDdram par 0)

/-- `set_display` (R185): only the display-control command, built from the operand. -/
def setDisplayMicros (par : Params) (t : TimingConfig) (flags : Option DisplayConfig) : Option (List Micro) :=
  flags.map fun f => byteMicros t .cmd (displayControl par f.displayOn f.cursor f.blink)

/-- What `set_display` stores after its transfer (R185, D18). -/
def storeFlags (flags : Option DisplayConfig) (s : State) : State :=
  match flags with
  | some f => s.storeDisplay f
  | none => s

/-- `clear` (R181). -/
def execClear (s : State) : Result := hostOperation s (some (clearMicros s.par s.cfg.time)) id

/-- `home` (R182). -/
def execHome (s : State) : Result := hostOperation s (some (homeMicros s.par s.cfg.time)) id

/-- `set_cursor` (R183): InvalidParameter if `row >= 2` or `column >= 16`. -/
def execSetCursor (row column : Nat) (s : State) : Result :=
  hostOperation s (setCursorMicros s.par s.cfg.time row column) id

/-- `write_char` (R186). -/
def execWriteChar (c : Nat) (s : State) : Result := hostOperation s (some (writeCharMicros s.cfg.time c)) id

/-- `write_string` (R187): InvalidParameter if absent. -/
def execWriteString (bytes : Option (List Nat)) (s : State) : Result :=
  hostOperation s (writeStringMicros s.par s.cfg.time bytes) id

/-- `create_glyph` (R184): InvalidParameter if `slot > 7` or the pattern is absent. -/
def execCreateGlyph (slot : Nat) (pattern : Option Pattern) (s : State) : Result :=
  hostOperation s (createGlyphMicros s.par s.cfg.time slot pattern) id

/-- `set_display` (R185): InvalidParameter if absent. -/
def execSetDisplay (flags : Option DisplayConfig) (s : State) : Result :=
  hostOperation s (setDisplayMicros s.par s.cfg.time flags) (storeFlags flags)

end Sys2Proof.Machine
end

