-- ==== Sys2Proof/Machine/CommandByte.lean ====
section
/-! DEFINITION. The command and data byte frames as instructions of their own (30_encoding.md R107 to R114): each is the
byte transfer of its value (R162). A command frame stands for its row of R107: the byte sent is the one assembled from
`State.par`, which is the frame's own only at the standard values (DESIGN CHOICE, safe; log entry 25). -/

namespace Sys2Proof.Machine

/-- The clear command byte (R108); the wait `T_CLEAR` belongs to `clear` (R181). -/
def execCmdClear (s : State) : Result := transfer s (byteMicros s.cfg.time .cmd s.par.cmdClear)

/-- The home command byte (R109). -/
def execCmdHome (s : State) : Result := transfer s (byteMicros s.cfg.time .cmd s.par.cmdHome)

/-- The function-set command byte (R110). -/
def execCmdFunctionSet (twoLine font5x10 : Bool) (s : State) : Result :=
  transfer s (byteMicros s.cfg.time .cmd (functionSet s.par twoLine font5x10))

/-- The display-control command byte (R111). -/
def execCmdDisplayControl (displayOn cursor blink : Bool) (s : State) : Result :=
  transfer s (byteMicros s.cfg.time .cmd (displayControl s.par displayOn cursor blink))

/-- The set-CGRAM-address command byte (R112). -/
def execCmdSetCgram (slot : BitVec 3) (s : State) : Result :=
  transfer s (byteMicros s.cfg.time .cmd (setCgram s.par slot.toNat))

/-- The set-DDRAM-address command byte (R113). -/
def execCmdSetDdram (addr : BitVec 7) (s : State) : Result :=
  transfer s (byteMicros s.cfg.time .cmd (setDdram s.par addr))

/-- A data byte (R114): the operand itself. -/
def execData (value : Byte) (s : State) : Result := transfer s (byteMicros s.cfg.time .data value)

end Sys2Proof.Machine
end

