-- ==== Sys2Proof/Machine/Initialization.lean ====
section
/-! DEFINITION. The operation `init` (41_initialization.md). -/

namespace Sys2Proof.Machine

/-- The expansion of a successful `init` (R142): configure, power-on wait, resync, function set, display control, clear. -/
def initMicros (par : Params) (c : DriverConfig) : List Micro :=
  configureMicros ++ [(Action.delayMs c.time.tPoweron).plain] ++ resyncMicros par c.time ++
    byteMicros c.time .cmd (functionSet par c.disp.twoLine c.disp.font5x10) ++
    byteMicros c.time .cmd (displayControl par c.disp.displayOn c.disp.cursor c.disp.blink) ++ clearMicros par c.time

/-- `init` (R140): an absent configuration fails; two equal PinRefs are refused (R22, D19); else the configuration is stored
before the first event (D18, C13), the whole expansion runs and READY becomes true. A second `init` is legal (D20). -/
def execInit (config : Option DriverConfig) (s : State) : Result :=
  whenIdle s (match config with
    | none => invalidParameter s
    | some c =>
      if PinConfig.distinct c.pin then .next ((runMicros (initMicros s.par c) (s.storeConfig c)).setReady.deliver .success)
      else .refused .sharedPins)

end Sys2Proof.Machine
end

