-- ==== Sys2Proof/Machine/StatusResult.lean ====
section
/-! DEFINITION. The status results as instructions of their own (30_encoding.md R103): `return S`, which delivers the status
and leaves the block idle (10_state.md R33, R34). -/

namespace Sys2Proof.Machine

/-- `return Success`. -/
def execStatusSuccess (s : State) : Result := whenIdle s (.next (s.deliver .success))

/-- `return InvalidParameter`: nothing but the status changes (60_exceptions.md R226). -/
def execStatusInvalidParameter (s : State) : Result := whenIdle s (invalidParameter s)

/-- `Busy`: "reserved for future read-back support; never currently produced" (R223, U5), so nothing returns it. -/
def execStatusBusy (_s : State) : Result := .refused .busyReserved

end Sys2Proof.Machine
end

