-- ==== Sys2Proof/Machine/Transfer.lean ====
section
/-! DEFINITION. The internal transfers as instructions of their own (42_transfer_primitives.md, 30_encoding.md R115); only the block
itself performs them, the host cannot ask for one (R164). A
bare nibble or pulse outside the resync sequence leaves the attached controller out of step, so the observer gives up on
every field (20_memory.md R69; DESIGN CHOICE, safe; log entry 8). -/

namespace Sys2Proof.Machine

/-- `pulse_enable` (R160). -/
def execPulseEnable (s : State) : Result := transfer s (pulseMicros s.cfg.time .strayPulse)

/-- `write_nibble` (R161): bits 7..4 of the value are ignored. -/
def execWriteNibble (value : Byte) (s : State) : Result :=
  transfer s (nibbleMicros s.cfg.time (loNibble value) (.strayNibble (loNibble value)))

/-- `write_byte` (R162); `r` is the level of RS (R106). -/
def execWriteByte (r : Bool) (value : Byte) (s : State) : Result :=
  transfer s (byteMicros s.cfg.time (if r then .data else .cmd) value)

/-- The resync nibble `0011` alone (R115); its wait belongs to `init` (R141). -/
def execResync8Bit (s : State) : Result := transfer s (nibbleMicros s.cfg.time 0x3 (.strayNibble 0x3))

/-- The resync nibble `0010` alone (R115). -/
def execResyncCommit4Bit (s : State) : Result := transfer s (nibbleMicros s.cfg.time 0x2 (.strayNibble 0x2))

end Sys2Proof.Machine
end

