-- ==== Sys2Proof/Machine/Dispatch.lean ====
section
/-! DEFINITION. One arm per constructor of Instr. -/

namespace Sys2Proof.Machine

def exec (i : Instr) (s : State) : Host.Outcome State Fault Refusal :=
  match i with
  | .init config => Sys2Proof.Machine.execInit config s
  | .clear => Sys2Proof.Machine.execClear s
  | .home => Sys2Proof.Machine.execHome s
  | .setCursor row column => Sys2Proof.Machine.execSetCursor row column s
  | .writeChar c => Sys2Proof.Machine.execWriteChar c s
  | .writeString bytes => Sys2Proof.Machine.execWriteString bytes s
  | .createGlyph slot pattern => Sys2Proof.Machine.execCreateGlyph slot pattern s
  | .setDisplay flags => Sys2Proof.Machine.execSetDisplay flags s
  | .pulseEnable => Sys2Proof.Machine.execPulseEnable s
  | .writeNibble value => Sys2Proof.Machine.execWriteNibble value s
  | .writeByte r value => Sys2Proof.Machine.execWriteByte r value s
  | .cmdClear => Sys2Proof.Machine.execCmdClear s
  | .cmdHome => Sys2Proof.Machine.execCmdHome s
  | .cmdFunctionSet twoLine font => Sys2Proof.Machine.execCmdFunctionSet twoLine font s
  | .cmdDisplayControl on cursor blink => Sys2Proof.Machine.execCmdDisplayControl on cursor blink s
  | .cmdSetCgram slot => Sys2Proof.Machine.execCmdSetCgram slot s
  | .cmdSetDdram addr => Sys2Proof.Machine.execCmdSetDdram addr s
  | .data value => Sys2Proof.Machine.execData value s
  | .resync8Bit => Sys2Proof.Machine.execResync8Bit s
  | .resyncCommit4Bit => Sys2Proof.Machine.execResyncCommit4Bit s
  | .statusSuccess => Sys2Proof.Machine.execStatusSuccess s
  | .statusInvalidParameter => Sys2Proof.Machine.execStatusInvalidParameter s
  | .statusBusy => Sys2Proof.Machine.execStatusBusy s

end Sys2Proof.Machine
end

