-- ==== Sys2Proof/Machine/Sequencer.lean ====
section
/-! DEFINITION. The sequencer event by event (10_state.md R33): the host presents an operation, and each tick emits exactly
one event; the status is returned after the last. `exec` runs the same expansions as one transition (D31). -/

namespace Sys2Proof.Machine

/-- The expansion of a host operation (R33): `none` for a failed parameter check and for what is no host operation. -/
def expansion (par : Params) (t : TimingConfig) (op : Instr) : Option (List Micro) :=
  match op with
  | .init config => config.map (initMicros par)
  | .clear => some (clearMicros par t)
  | .home => some (homeMicros par t)
  | .setCursor row column => setCursorMicros par t row column
  | .writeChar c => some (writeCharMicros t c)
  | .writeString s => writeStringMicros par t s
  | .createGlyph slot pattern => createGlyphMicros par t slot pattern
  | .setDisplay flags => setDisplayMicros par t flags
  | .pulseEnable | .writeNibble _ | .writeByte _ _ | .cmdClear | .cmdHome | .cmdFunctionSet _ _ | .cmdDisplayControl _ _ _
  | .cmdSetCgram _ | .cmdSetDdram _ | .data _ | .resync8Bit | .resyncCommit4Bit | .statusSuccess
  | .statusInvalidParameter | .statusBusy => none

/-- The eight operations of the public surface (R101); the rest the host cannot ask for (R164). -/
def isHostOperation (op : Instr) : Bool :=
  match op with
  | .init _ | .clear | .home | .setCursor _ _ | .writeChar _ | .writeString _ | .createGlyph _ _ | .setDisplay _ => true
  | .pulseEnable | .writeNibble _ | .writeByte _ _ | .cmdClear | .cmdHome | .cmdFunctionSet _ _ | .cmdDisplayControl _ _ _
  | .cmdSetCgram _ | .cmdSetDdram _ | .data _ | .resync8Bit | .resyncCommit4Bit | .statusSuccess
  | .statusInvalidParameter | .statusBusy => false

/-- What an operation writes after its last event and before its status: `init` sets READY (R140), `set_display` stores its
flags (R185). -/
def storeAtEnd (op : Instr) (s : State) : State :=
  match op with
  | .init _ => s.setReady
  | .setDisplay flags => storeFlags flags s
  | .clear | .home | .setCursor _ _ | .writeChar _ | .writeString _ | .createGlyph _ _ | .pulseEnable | .writeNibble _
  | .writeByte _ _ | .cmdClear | .cmdHome | .cmdFunctionSet _ _ | .cmdDisplayControl _ _ _ | .cmdSetCgram _
  | .cmdSetDdram _ | .data _ | .resync8Bit | .resyncCommit4Bit | .statusSuccess | .statusInvalidParameter
  | .statusBusy => s

/-- The operation's last event is out: store, return Success, idle (R33). -/
def finish (op : Instr) (s : State) : State := (storeAtEnd op s).deliver .success

/-- The sequencer stands before event `k` of `op`, or has finished if there is no such event. -/
def arriveAt (op : Instr) (ms : List Micro) (k : Nat) (s : State) : State :=
  if k < ms.length then s.setSeq (.running op k) else finish op s

/-- The host presents `op`: its checks are made, and the sequencer stands before its first event. -/
def start (op : Instr) (s : State) : Result :=
  whenIdle s (
    if isHostOperation op then
      match op with
      | .init none => invalidParameter s
      | .init (some c) =>
        if PinConfig.distinct c.pin then .next (arriveAt op (initMicros s.par c) 0 (s.storeConfig c))
        else .refused .sharedPins
      | _ => whenReady s (match expansion s.par s.cfg.time op with
        | none => invalidParameter s
        | some ms => whenConfigured s (.next (arriveAt op ms 0 s)))
    else .refused .notHostOperation)

/-- One event of the operation in progress (R33). An operation whose checks fail has no event and returns
InvalidParameter; `start` never leaves one in progress. -/
def tick (s : State) : State :=
  match s.seq with
  | .idle => s
  | .internal _ => s
  | .running op k =>
    match expansion s.par s.cfg.time op with
    | none => s.deliver .invalidParameter
    | some ms =>
      match ms[k]? with
      | none => finish op s
      | some m => arriveAt op ms (k + 1) (emit s m)

end Sys2Proof.Machine
end

