-- ==== Sys2Proof/Machine/Fetch.lean ====
section
/-! DEFINITION. Running one word. The host's requests are one of the eight operations and nothing else (30_encoding.md R101,
42_transfer_primitives.md R164): a frame, a nibble, a pulse or a status is run only where the sequencer itself stands
before it. -/

namespace Sys2Proof.Machine

/-- The block carries out a word of its layers below the host's surface, alone (R2, R164; log entry 7). -/
def runInternal (w : Request) (s : State) : Result :=
  match decode s.par w with
  | .ok i => exec i (s.setSeq .idle)
  | .error e => .refused (.undecodable e)

/-- The block runs the host operation that a presented request stands for (R101). -/
def runRequest (w : List Bool) (s : State) : Result :=
  match decodeHost s.par w with
  | .ok i => exec i s
  | .error e => .refused (.undecodable e)

end Sys2Proof.Machine
end

