-- ==== Sys2Proof/Machine/Step.lean ====
section
/-! DEFINITION. One step. While an operation is in progress the sequencer emits its next event. Idle, the block takes the
oldest request the host has presented and runs the operation it stands for; with nothing presented it stays idle and holds its
lines (60_exceptions.md R234). -/

namespace Sys2Proof.Machine

/-- One step of the block (00_scope.md R6, 10_state.md R33; log entries 1, 7). -/
def step (s : State) : Host.Outcome State Fault Refusal :=
  match s.seq with
  | .running _ _ => .next (tick s)
  | .internal w => runInternal w s
  | .idle =>
    match s.inbox with
    | [] => .next s
    | w :: ws => runRequest w (s.setInbox ws)

/-- `s` with a table word as the next to be run: a host request is presented first to an idle block, and before any other word
the sequencer itself is placed, since the host cannot present it (R164; log entries 1, 6, 7). -/
def State.withFetchWord (s : State) (nbits w : Nat) : State :=
  let r := tableRequest nbits w
  match r.format with
  | .host => { s with inbox := r.bits :: s.inbox, seq := .idle }
  | .ewave | .frame4 | .frame9 | .cmd9 | .resync4 | .status => { s with seq := .internal r }

end Sys2Proof.Machine
end

