-- ==== Sys2Proof/Safety.lean ====
section
/-! DEFINITION. The terms claims are stated in: what a sound state is, and what is read off a trace. -/

namespace Sys2Proof.Machine

/-- The open parameters stand at the command bytes of 30_encoding.md R107 (D13). -/
def Params.standardCommands (par : Params) : Bool :=
  par.cmdClear = 0x01 && par.cmdHome = 0x02 && par.cmdFunctionSet = 0x20 && par.cmdDisplayControl = 0x08 &&
    par.cmdSetCgram = 0x40 && par.cmdSetDdram = 0x80

/-- A host operation may run: idle, READY, every line an output (10_state.md R23, R29, R33). -/
def State.operational (s : State) : Bool := decide (s.seq = .idle) && s.ready && s.line.allOutput

/-- What one event does to the pin `p` itself, whatever line it serves (R30, R31). -/
def pinAfter (configLevel : Level) (p : PinRef) (x : Latch) (e : Event) : Latch :=
  match e with
  | .cfgOut q => if q = p then ⟨.output, Level.toLine configLevel⟩ else x
  | .write q v => if q = p then ⟨x.mode, Level.toLine v⟩ else x
  | .delayMs _ => x
  | .delayUs _ => x

/-- The pin `p` after a trace: what the collaborator was last told (R30). -/
def replayPin (configLevel : Level) (p : PinRef) (events : List Event) : Latch :=
  events.foldl (pinAfter configLevel p) Latch.reset

/-- Between operations: the sequencer is idle, READY says that the lines are outputs (R23, R29), the pins of a ready block
are distinct (R22), E is low (R229), and every latch mirrors what the trace told its pin (R30). -/
structure State.LinesSound (s : State) : Prop where
  idle : s.seq = .idle
  ready_iff : s.ready = s.line.allOutput
  distinct : s.ready = true → PinConfig.distinct s.cfg.pin = true
  enableLow : s.ready = true → s.line.e.level = .low
  mirror : ∀ l, s.line.get l = replayPin s.par.configLevel (PinConfig.ofLine s.cfg.pin l) s.trace

/-- The observer's fields hold what 20_memory.md R80 says they can: memories in canonical form over their own addresses, five
bits per CGRAM cell, an address that fits its mode, none while the mode is unknown. -/
structure Lcd.Sound (l : Lcd) : Prop where
  ddram_wf : Memory.wf l.ddram
  ddram_onScreen : ∀ c ∈ l.ddram, onScreen c.1 = true
  cgram_wf : Memory.wf l.cgram
  cgram_range : ∀ c ∈ l.cgram, c.1 < 64 ∧ c.2.toNat < 32
  ac_cgram : l.mode = .cgram → ∀ a, l.ac = some a → a.toNat < 64
  ac_unknown : l.mode = .unknown → l.ac = none

/-- The lines' levels after an event, by pin (20_memory.md R76: "scan the trace keeping the six levels"). -/
def levelsAfter (pins : PinConfig) (p : PinRef) (v : LineLevel) (ls : Lines) : Lines where
  rs := if pins.rs = p then ⟨ls.rs.mode, v⟩ else ls.rs
  e := if pins.e = p then ⟨ls.e.mode, v⟩ else ls.e
  d0 := if pins.d0 = p then ⟨ls.d0.mode, v⟩ else ls.d0
  d1 := if pins.d1 = p then ⟨ls.d1.mode, v⟩ else ls.d1
  d2 := if pins.d2 = p then ⟨ls.d2.mode, v⟩ else ls.d2
  d3 := if pins.d3 = p then ⟨ls.d3.mode, v⟩ else ls.d3

/-- `8*LINE[D3] + 4*LINE[D2] + 2*LINE[D1] + LINE[D0]` (R76). -/
def nibbleOnLines (ls : Lines) : Nibble :=
  BitVec.ofNat 4 (natOfBits [decide (ls.d0.level = .high), decide (ls.d1.level = .high), decide (ls.d2.level = .high),
    decide (ls.d3.level = .high)])

/-- The nibble log recovered from events: one entry at every falling edge of E (R76). -/
def scanNibbles (configLevel : Level) (pins : PinConfig) : Lines → List Event → List NibbleEntry
  | _, [] => []
  | ls, .cfgOut p :: es => scanNibbles configLevel pins (levelsAfter pins p (Level.toLine configLevel) ls) es
  | ls, .write p v :: es =>
    let rest := scanNibbles configLevel pins (levelsAfter pins p (Level.toLine v) ls) es
    if p = pins.e ∧ v = .low ∧ ls.e.level = .high then ⟨ls.rs.level, nibbleOnLines ls⟩ :: rest else rest
  | ls, .delayMs _ :: es => scanNibbles configLevel pins ls es
  | ls, .delayUs _ :: es => scanNibbles configLevel pins ls es

/-- No pin but E is written while E is high, and E is low at the end (70_reset_and_hazards.md R254); the flag is whether E is
high before the events. -/
def dataStable (pins : PinConfig) : Bool → List Event → Bool
  | eHigh, [] => !eHigh
  | eHigh, .cfgOut _ :: es => dataStable pins eHigh es
  | eHigh, .write p v :: es => if p = pins.e then dataStable pins (decide (v = .high)) es else !eHigh && dataStable pins eHigh es
  | eHigh, .delayMs _ :: es => dataStable pins eHigh es
  | eHigh, .delayUs _ :: es => dataStable pins eHigh es

/-- The least time an event blocks, in microseconds (R264). -/
def Event.delay : Event → Nat
  | .cfgOut _ => 0
  | .write _ _ => 0
  | .delayMs n => 1000 * n
  | .delayUs n => n

/-- The sum of the delay values, a lower bound on the time the events take (R264, R267). -/
def totalDelay (events : List Event) : Nat := (events.map Event.delay).sum

/-- The conditions under which a host operation returns InvalidParameter, complete (60_exceptions.md R221). -/
def violatesParameters (op : Instr) : Bool :=
  match op with
  | .init config => config.isNone
  | .setCursor row column => decide (2 ≤ row) || decide (16 ≤ column)
  | .createGlyph slot pattern => decide (7 < slot) || pattern.isNone
  | .setDisplay flags => flags.isNone
  | .writeString s => s.isNone
  | .clear | .home | .writeChar _ | .pulseEnable | .writeNibble _ | .writeByte _ _ | .cmdClear | .cmdHome
  | .cmdFunctionSet _ _ | .cmdDisplayControl _ _ _ | .cmdSetCgram _ | .cmdSetDdram _ | .data _ | .resync8Bit
  | .resyncCommit4Bit | .statusSuccess | .statusInvalidParameter | .statusBusy => false

/-- The command bytes the block sends, with the standard values: clear, home, function set, display control, set CGRAM address
at a slot, set DDRAM address on screen (30_encoding.md R107 to R113, R116). -/
def isSentCommand (v : Byte) : Bool :=
  v = 0x01 || v = 0x02 || v &&& 0xF3 = 0x20 || v &&& 0xF8 = 0x08 || v &&& 0xC7 = 0x40 ||
    (v.getLsbD 7 && onScreen (v.extractLsb' 0 7).toNat)

/-! ### The frames as the spec writes them out -/

/-- `W(l, v)` (41_initialization.md R142). -/
def lineWrite (c : DriverConfig) (l : Line) (v : Level) : Event := .write (PinConfig.ofLine c.pin l) v

/-- `C(l)`. -/
def lineConfigure (c : DriverConfig) (l : Line) : Event := .cfgOut (PinConfig.ofLine c.pin l)

/-- The enable waveform: E low, 1 us, E high, T_ENPULSE us, E low (30_encoding.md R104). -/
def pulseEvents (c : DriverConfig) : List Event :=
  [lineWrite c .e .low, .delayUs 1, lineWrite c .e .high, .delayUs c.time.tEnpulse, lineWrite c .e .low]

/-- A data line's level for a bit of the nibble: high for 1, low for 0 (20_memory.md R66). -/
def bitLevel (n : Nibble) (k : Nat) : Level := if n.getLsbD k then .high else .low

/-- `NIB(n)`, nine events (R105, R142). -/
def nibbleEvents (c : DriverConfig) (n : Nibble) : List Event :=
  [lineWrite c .d0 (bitLevel n 0), lineWrite c .d1 (bitLevel n 1), lineWrite c .d2 (bitLevel n 2),
    lineWrite c .d3 (bitLevel n 3)] ++ pulseEvents c

/-- `hi(v)` (00_scope.md R9). -/
def highHalf (v : Byte) : Nibble := (v >>> 4).setWidth 4

/-- `lo(v)` (R9). -/
def lowHalf (v : Byte) : Nibble := v.setWidth 4

/-- RS for a byte: low for a command, high for character data (R106). -/
def selectLevel (k : ByteKind) : Level := match k with | .cmd => .low | .data => .high

/-- The byte frame, twenty events (R106, R162). -/
def byteEvents (c : DriverConfig) (k : ByteKind) (v : Byte) : List Event :=
  [lineWrite c .rs (selectLevel k)] ++ nibbleEvents c (highHalf v) ++ nibbleEvents c (lowHalf v) ++ [.delayUs c.time.tCmd]

/-- The two nibble-log entries of a byte (20_memory.md R77). -/
def byteNibbles (k : ByteKind) (v : Byte) : List NibbleEntry :=
  [⟨Level.toLine (selectLevel k), highHalf v⟩, ⟨Level.toLine (selectLevel k), lowHalf v⟩]

/-- The latches after a byte: RS at the byte's kind, E low, the data lines at the low nibble (R162). -/
def linesAfter (k : ByteKind) (v : Byte) : Lines where
  rs := ⟨.output, Level.toLine (selectLevel k)⟩
  e := ⟨.output, .low⟩
  d0 := ⟨.output, Level.toLine (bitLevel (lowHalf v) 0)⟩
  d1 := ⟨.output, Level.toLine (bitLevel (lowHalf v) 1)⟩
  d2 := ⟨.output, Level.toLine (bitLevel (lowHalf v) 2)⟩
  d3 := ⟨.output, Level.toLine (bitLevel (lowHalf v) 3)⟩

/-- What a transfer leaves alone: configuration, sequencer, READY, the presented requests and the parameters. -/
def keepsControl (s t : State) : Prop :=
  t.cfg = s.cfg ∧ t.seq = s.seq ∧ t.ready = s.ready ∧ t.inbox = s.inbox ∧ t.par = s.par

/-- From `s` to `t` these events were emitted, these nibbles latched and these bytes transferred, in this order, and nothing
else was recorded. -/
def sends (s t : State) (events : List Event) (nibbles : List NibbleEntry) (bytes : List ByteEntry) : Prop :=
  t.trace = s.trace ++ events ∧ t.nibLog = s.nibLog ++ nibbles ∧ t.byteLog = s.byteLog ++ bytes

/-- The bytes of an operation one after another, as the observer sees them (R81, R84, R85). -/
def observeBytes (s : State) (bytes : List ByteEntry) : Lcd :=
  bytes.foldl (fun l e => Lcd.byte s.par.blank s.cfg.time e l) s.lcd

/-- From `s` to `t` exactly these bytes went over the bus, each in its frame, then these further events; the latches are those
of the last byte, and the observer saw the bytes in order. -/
def sendsBytes (s t : State) (bytes : List ByteEntry) (after : List Event) : Prop :=
  sends s t (bytes.flatMap (fun e => byteEvents s.cfg e.kind e.value) ++ after)
    (bytes.flatMap fun e => byteNibbles e.kind e.value) bytes ∧
  t.line = (match bytes.getLast? with | some e => linesAfter e.kind e.value | none => s.line) ∧
  t.lcd = observeBytes s bytes

/-- The byte transfer completes: it sends exactly one byte and nothing but the bus changes; it gives no status (R162). -/
def transfersByte (i : Instr) (s : State) (k : ByteKind) (v : Byte) : Prop :=
  ∃ t, exec i s = .next t ∧ sendsBytes s t [⟨k, v⟩] [] ∧ keepsControl s t ∧ t.status = s.status

/-- The resync sequence's events (41_initialization.md R141), with `T_MODE_COMMIT` if there is one. -/
def resyncEvents (par : Params) (c : DriverConfig) : List Event :=
  nibbleEvents c 0x3 ++ [.delayUs 4500] ++ nibbleEvents c 0x3 ++ [.delayUs 4500] ++ nibbleEvents c 0x3 ++ [.delayUs 150] ++
    nibbleEvents c 0x2 ++ (match par.tModeCommit with | some n => [.delayUs n] | none => [])

/-- Steps 1 and 2 of `init` (R142). -/
def powerOnEvents (c : DriverConfig) : List Event :=
  [lineConfigure c .rs, lineConfigure c .e, lineConfigure c .d0, lineConfigure c .d1, lineConfigure c .d2, lineConfigure c .d3,
    .delayMs c.time.tPoweron]

/-- The three bytes of `init` (R140): function set, display control, clear. -/
def initBytes (par : Params) (c : DriverConfig) : List ByteEntry :=
  [⟨.cmd, functionSet par c.disp.twoLine c.disp.font5x10⟩,
    ⟨.cmd, displayControl par c.disp.displayOn c.disp.cursor c.disp.blink⟩, ⟨.cmd, par.cmdClear⟩]

/-- The ten bytes of `create_glyph` (43_command_operations.md R184). -/
def glyphBytes (par : Params) (slot : Nat) (p : Pattern) : List ByteEntry :=
  [⟨.cmd, setCgram par slot⟩, ⟨.data, operandByte p.p0⟩, ⟨.data, operandByte p.p1⟩, ⟨.data, operandByte p.p2⟩, ⟨.data, operandByte p.p3⟩,
    ⟨.data, operandByte p.p4⟩, ⟨.data, operandByte p.p5⟩, ⟨.data, operandByte p.p6⟩, ⟨.data, operandByte p.p7⟩, ⟨.cmd, setDdram par 0⟩]

/-- A state with another observer: what the block itself holds is the same. -/
def sameBlock (r r' : Result) : Prop :=
  match r, r' with
  | .next t, .next t' => t'.setLcd t.lcd = t
  | .refused a, .refused b => a = b
  | _, _ => False

/-- `n` ticks of the sequencer. -/
def ticks : Nat → State → State
  | 0, s => s
  | n + 1, s => ticks n (tick s)

/-- The events of each row when it succeeds with the default parameters (42_transfer_primitives.md R163). -/
def eventCount (op : Instr) : Nat :=
  match op with
  | .init _ => 107
  | .clear => 21
  | .home | .setCursor _ _ | .setDisplay _ | .writeChar _ => 20
  | .writeString s => 20 * (s.getD []).length
  | .createGlyph _ _ => 200
  | .pulseEnable => 5
  | .writeNibble _ | .resync8Bit | .resyncCommit4Bit => 9
  | .writeByte _ _ | .cmdClear | .cmdHome | .cmdFunctionSet _ _ | .cmdDisplayControl _ _ _ | .cmdSetCgram _
  | .cmdSetDdram _ | .data _ => 20
  | .statusSuccess | .statusInvalidParameter | .statusBusy => 0

/-- The least time of each host operation in microseconds, with the default parameters (70_reset_and_hazards.md R267). -/
def leastTime (t : TimingConfig) (op : Instr) : Nat :=
  let b := 2 * (1 + t.tEnpulse) + t.tCmd
  match op with
  | .init (some c) =>
    1000 * c.time.tPoweron + 9150 + 4 * (1 + c.time.tEnpulse) + 3 * (2 * (1 + c.time.tEnpulse) + c.time.tCmd) + c.time.tClear
  | .clear => b + t.tClear
  | .home | .setCursor _ _ | .setDisplay _ | .writeChar _ => b
  | .writeString s => (s.getD []).length * b
  | .createGlyph _ _ => 10 * b
  | .init none | .pulseEnable | .writeNibble _ | .resync8Bit | .resyncCommit4Bit | .writeByte _ _ | .cmdClear | .cmdHome
  | .cmdFunctionSet _ _ | .cmdDisplayControl _ _ _ | .cmdSetCgram _ | .cmdSetDdram _ | .data _ | .statusSuccess
  | .statusInvalidParameter | .statusBusy => 0

end Sys2Proof.Machine
end

