-- ==== Sys2Proof/Certificates/Slice0/Obligations.lean ====
section
/-! DEFINITION. The statements for the provers. Each docstring names the rules of spec/ it formalises, and says where it rests
on a choice that is the spec's own decision or the model's. -/

open Sys2Proof Sys2Proof.Machine

/-! ### Fetching, decoding, encoding -/

/-- R6, R33, R101, R234; log entries 1 and 7 (the model's choices). An idle block takes the oldest presented request and runs the
instruction it decodes to; a word that the sequencer itself stands before is run alike, from an idle block; a word that is no
instruction is refused by name; with nothing presented an idle block stays as it is. -/
def Obligations.StepRunsThePresentedWord : Prop :=
  ∀ s : State,
    (s.seq = .idle → s.inbox = [] → step s = .next s) ∧
    (∀ w ws, s.seq = .idle → s.inbox = w :: ws →
      (∀ i, decode s.par ⟨.host, w⟩ = .ok i → step s = exec i (s.setInbox ws)) ∧
      (∀ e, decode s.par ⟨.host, w⟩ = .error e → step s = .refused (.undecodable e))) ∧
    (∀ w, s.seq = .internal w →
      (∀ i, decode s.par w = .ok i → step s = exec i (s.setSeq .idle)) ∧
      (∀ e, decode s.par w = .error e → step s = .refused (.undecodable e)))

/-- R101, R102, R103, R104 to R115: words written out from the encodings. Host selectors with zero operands, P1's
`set_cursor 1, 0` (bits 011, then 01, then 00), command frames, resync nibbles, status codes. That a table word of 8 or 24 bits is
read as a host request, one of 16 bits as a command or data frame, of 4 as a resync nibble and of 2 as a status is the model's
choice (log entry 6, DESIGN CHOICE): the table's words carry no format. The last two clauses give the format and do not rest on
it. -/
def Obligations.WrittenOutWordsDecode : Prop :=
  decodeTableWord 8 0x00 = some (.init none) ∧ decodeTableWord 8 0x01 = some .clear ∧ decodeTableWord 8 0x02 = some .home ∧
  decodeTableWord 24 0x0000B = some (.setCursor 1 0) ∧ decodeTableWord 16 0x0C5 = some (.cmdSetDdram 0x45) ∧
  decodeTableWord 16 0x02C = some (.cmdFunctionSet true true) ∧ decodeTableWord 16 0x00D = some (.cmdDisplayControl true false true) ∧
  decodeTableWord 16 0x078 = some (.cmdSetCgram 7) ∧ decodeTableWord 16 0x148 = some (.data 0x48) ∧
  decodeTableWord 4 0x3 = some .resync8Bit ∧ decodeTableWord 2 0x1 = some .statusInvalidParameter ∧
  decode Config.defaults ⟨.ewave, [false, true, false]⟩ = .ok .pulseEnable ∧
  decode Config.defaults ⟨.frame4, [false, true, false, true]⟩ = .ok (.writeNibble 0xA)

/-- R102, R104 to R115: no bit of an encoding is dropped. Every well-formed instruction, with every operand, is what the
decoder reads from its own word, for every `W_OPERAND`, `W_TIME` and `STRING_END`. The layout of naturals and PinRefs is the
model's (log entry 5), and so is that a command frame keeps its default pattern for every `CMD_*` (log entry 25). -/
def Obligations.DecodeOfEncode : Prop :=
  ∀ (par : Params) (i : Instr), i.wellFormed par = true → decode par (encode par i) = .ok i

/-- R103 to R107, R115: a frame of its full width has one meaning: encoding what it decodes to gives the same frame. A command
frame keeps its default pattern on both sides, whatever the `CMD_*` parameters are (log entry 25, the model's choice). -/
def Obligations.EncodeOfDecodedFrame : Prop :=
  ∀ (par : Params) (w : Request) (i : Instr), w.format ≠ .host → w.bits.length = frameWidth w.format →
    decode par w = .ok i → encode par i = w

/-- R8, R32, R102, R105, R187: whatever is decoded is well-formed: operands and durations fit their widths, and a string never holds
its own end marker. -/
def Obligations.DecodedIsWellFormed : Prop :=
  ∀ (par : Params) (w : Request) (i : Instr), decode par w = .ok i → i.wellFormed par = true

/-- R107, R116: a command frame decodes exactly if its byte is one of the six commands (the position of the address fields
is the spec's general knowledge, D13 to D15); every other command byte is refused as never sent. The set-DDRAM-address row is
read by its pattern `1aaaaaaa` alone: an address off the screen, such as in 0x90, decodes although R116 counts it among the bytes the
block never sends, so "never sent" is here said of the rows' patterns, not of all of R116. Which bytes a block really sends is
`OnlyListedCommandsReachTheBus`. The patterns are the default ones for every `CMD_*` (log entry 25). -/
def Obligations.CommandFramesDecodeByTheirRows : Prop :=
  ∀ (par : Params) (v : Byte) (rest : List Bool),
    let w : Request := ⟨.cmd9, byteBits v ++ false :: rest⟩
    if v = 0x01 ∨ v = 0x02 ∨ v &&& 0xF3 = 0x20 ∨ v &&& 0xF8 = 0x08 ∨ v &&& 0xC7 = 0x40 ∨ v.getLsbD 7 = true then
      ∃ i, decode par w = .ok i
    else decode par w = .error .neverSentCommand

/-! ### Reset -/

/-- R37, R250: CFG zero-valued, no line configured, every level unknown, idle, not READY, nothing emitted or logged, the
attached controller unknown in every field. The model's choices at reset (STATUS, the empty inbox, the parameters' defaults:
log entries 1, 2, 4) are not part of this, nor is which pin the zero-valued PinRef names (log entry 3). Lines, SEQ and READY
are the spec's decisions D27 and D5. That the two logs are empty is not in R37, which does not list them: it is DEDUCED from R76 and
R77, one entry per execution and none executed (log entry 20). -/
def Obligations.ResetValues : Prop :=
  (∀ l, PinConfig.ofLine State.reset.cfg.pin l = PinRef.zero) ∧ State.reset.cfg.time = ⟨0, 0, 0, 0⟩ ∧
  State.reset.cfg.disp = ⟨false, false, false, false, false⟩ ∧
  (∀ l, State.reset.line.get l = ⟨.unconfigured, .unknown⟩) ∧ State.reset.seq = .idle ∧ State.reset.ready = false ∧
  State.reset.trace = [] ∧ State.reset.nibLog = [] ∧ State.reset.byteLog = [] ∧
  State.reset.lcd.iface = .unknown ∧ State.reset.lcd.mode = .unknown ∧ State.reset.lcd.ac = none ∧
  (∀ a, Memory.read State.reset.lcd.ddram a = none) ∧ (∀ a, Memory.read State.reset.lcd.cgram a = none) ∧
  State.reset.lcd.on = none ∧ State.reset.lcd.cursor = none ∧ State.reset.lcd.blink = none ∧
  State.reset.lcd.twoLine = none ∧ State.reset.lcd.font5x10 = none

/-- R8, R23, R24, R29, R30, R80, R188: the invariants hold at reset; the standard command bytes are the parameters' defaults (log
entry 4). -/
def Obligations.ResetIsSound : Prop :=
  State.LinesSound State.reset ∧ Lcd.Sound State.reset.lcd ∧
  TimingConfig.fits State.reset.par State.reset.cfg.time = true ∧
  (Params.standardCommands State.reset.par = true ∧ State.reset.seq = .idle ∧ State.reset.lcd.mode ≠ .cgram)

/-! ### The transfer primitives -/

/-- R104, R160: `pulse_enable` puts low, high, low on E with the two waits; E ends low; nothing else of the block changes. That the
first wait is exactly 1 microsecond is the spec's decision D11 on "~1µs" (log entry 11, DESIGN CHOICE). What the attached
controller makes of a bare pulse is `StrayTransfersLoseTheDisplay`. -/
def Obligations.PulseEnableWaveform : Prop :=
  ∀ s : State, s.seq = .idle → s.line.allOutput = true →
    ∃ t, exec .pulseEnable s = .next t ∧
      sends s t [lineWrite s.cfg .e .low, .delayUs 1, lineWrite s.cfg .e .high, .delayUs s.cfg.time.tEnpulse,
        lineWrite s.cfg .e .low] [] [] ∧
      t.line = s.line.set .e ⟨.output, .low⟩ ∧ keepsControl s t ∧ t.status = s.status

/-- R66, R105, R161: `write_nibble` drives D0 to D3 to bits 0 to 3 (bits 7 to 4 are ignored), before the enable waveform and held
through it; RS is not touched; one nibble-log entry. That the four data lines are written in the time order D0, D1, D2, D3 is the
spec's decision D8, followed by R161 (log entry 11, DESIGN CHOICE); R66 and R105 give the mapping of bits to lines only. -/
def Obligations.NibbleFrame : Prop :=
  ∀ (s : State) (v : Byte), s.seq = .idle → s.line.allOutput = true →
    ∃ t, exec (.writeNibble v) s = .next t ∧
      sends s t ([lineWrite s.cfg .d0 (if v.getLsbD 0 then .high else .low), lineWrite s.cfg .d1 (if v.getLsbD 1 then .high else .low),
        lineWrite s.cfg .d2 (if v.getLsbD 2 then .high else .low), lineWrite s.cfg .d3 (if v.getLsbD 3 then .high else .low)] ++
        pulseEvents s.cfg) [⟨s.line.rs.level, lowHalf v⟩] [] ∧
      t.line = ⟨s.line.rs, ⟨.output, .low⟩, ⟨.output, if v.getLsbD 0 then .high else .low⟩,
        ⟨.output, if v.getLsbD 1 then .high else .low⟩, ⟨.output, if v.getLsbD 2 then .high else .low⟩,
        ⟨.output, if v.getLsbD 3 then .high else .low⟩⟩ ∧
      keepsControl s t ∧ t.status = s.status

/-- R65, R106, R162: `write_byte` sets RS (low for a command, high for data), sends the high nibble, then the low nibble, and
waits T_CMD; the logs gain two nibbles and one byte. -/
def Obligations.ByteFrame : Prop :=
  ∀ (s : State) (r : Bool) (v : Byte), s.seq = .idle → s.line.allOutput = true →
    transfersByte (.writeByte r v) s (if r then .data else .cmd) v

/-- R115: the resync nibbles are 0011 and 0010, whatever the configuration; RS is not written. -/
def Obligations.ResyncNibbleFrames : Prop :=
  ∀ s : State, s.seq = .idle → s.line.allOutput = true →
    (∃ t, exec .resync8Bit s = .next t ∧ sends s t (nibbleEvents s.cfg 0b0011) [⟨s.line.rs.level, 0b0011⟩] [] ∧
      t.line = ⟨s.line.rs, ⟨.output, .low⟩, ⟨.output, .high⟩, ⟨.output, .high⟩, ⟨.output, .low⟩, ⟨.output, .low⟩⟩ ∧
      keepsControl s t ∧ t.status = s.status) ∧
    (∃ t, exec .resyncCommit4Bit s = .next t ∧ sends s t (nibbleEvents s.cfg 0b0010) [⟨s.line.rs.level, 0b0010⟩] [] ∧
      t.line = ⟨s.line.rs, ⟨.output, .low⟩, ⟨.output, .low⟩, ⟨.output, .high⟩, ⟨.output, .low⟩, ⟨.output, .low⟩⟩ ∧
      keepsControl s t ∧ t.status = s.status)

/-- R107 to R114: each command frame and the data frame is the byte transfer of its assembled byte. The positions of the flag
and address fields are the spec's general knowledge (D14, D15); the base values stay symbolic. With the standard base values
(D13) the byte sent is the frame's own byte, `r` being the level of RS; with others it need not be (log entry 25, the model's
choice). -/
def Obligations.CommandAndDataFrames : Prop :=
  ∀ s : State, s.seq = .idle → s.line.allOutput = true →
    transfersByte .cmdClear s .cmd s.par.cmdClear ∧
    transfersByte .cmdHome s .cmd s.par.cmdHome ∧
    (∀ n f, transfersByte (.cmdFunctionSet n f) s .cmd
      (s.par.cmdFunctionSet ||| (if n then 0x08 else 0x00) ||| (if f then 0x04 else 0x00))) ∧
    (∀ d c b, transfersByte (.cmdDisplayControl d c b) s .cmd
      (s.par.cmdDisplayControl ||| (if d then 0x04 else 0x00) ||| (if c then 0x02 else 0x00) ||| (if b then 0x01 else 0x00))) ∧
    (∀ slot : BitVec 3, transfersByte (.cmdSetCgram slot) s .cmd (s.par.cmdSetCgram ||| BitVec.ofNat 8 (8 * slot.toNat))) ∧
    (∀ a : BitVec 7, transfersByte (.cmdSetDdram a) s .cmd (s.par.cmdSetDdram ||| BitVec.ofNat 8 a.toNat)) ∧
    (∀ v, transfersByte (.data v) s .data v) ∧
    (∀ (v : Byte) (r : Bool) (i : Instr), Params.standardCommands s.par = true → decode s.par ⟨.cmd9, byteBits v ++ [r]⟩ = .ok i →
      transfersByte i s (if r then .data else .cmd) v)

/-- R110, R111, R112, R113, R189: with the standard base values (D13) no fields overlap, and the assembled bytes are sums. The weight
of every flag and the place of both address fields are the spec's general knowledge, D14 and D15 (log entry 12, PRESUMED); R189
gives the arithmetic and not the positions. -/
def Obligations.CommandFieldsDoNotOverlap : Prop :=
  ∀ par : Params, Params.standardCommands par = true →
    (∀ n f, (functionSet par n f).toNat = 0x20 + (if n then 8 else 0) + (if f then 4 else 0)) ∧
    (∀ d c b, (displayControl par d c b).toNat = 0x08 + (if d then 4 else 0) + (if c then 2 else 0) + (if b then 1 else 0)) ∧
    (∀ slot : Nat, slot < 8 → (setCgram par slot).toNat = 0x40 + 8 * slot) ∧
    (∀ a, (setDdram par a).toNat = 0x80 + a.toNat)

/-- R33, R34, R103: delivering Success or InvalidParameter changes the status and nothing else of an idle block. -/
def Obligations.StatusIsDelivered : Prop :=
  ∀ s : State, s.seq = .idle →
    exec .statusSuccess s = .next { s with status := .success } ∧
    exec .statusInvalidParameter s = .next { s with status := .invalidParameter }

/-- R223: nothing returns Busy: the reserved result has no run, and no instruction leaves a status of Busy that was not there. -/
def Obligations.BusyIsNeverReturned : Prop :=
  (∀ s, exec .statusBusy s = .refused .busyReserved) ∧
  (∀ (i : Instr) (s t : State), exec i s = .next t → s.status ≠ .busy → t.status ≠ .busy)

/-! ### The host operations -/

/-- R140, R141, R142: from any idle state, the first time or again, `init` with distinct pins stores the configuration, emits
the whole sequence on the new pins, sets READY and succeeds. The order of the six configurations, the places of the waits
and the moment of the store are the spec's decisions (D6, D9, D10, D18), the flag layout its general knowledge (D14). -/
def Obligations.InitRunsTheWholeSequence : Prop :=
  ∀ (s : State) (c : DriverConfig), s.seq = .idle → PinConfig.distinct c.pin = true →
    ∃ t, exec (.init (some c)) s = .next t ∧
      sends s t (powerOnEvents c ++ resyncEvents s.par c ++
          (initBytes s.par c).flatMap (fun e => byteEvents c e.kind e.value) ++ [.delayUs c.time.tClear])
        ([⟨Level.toLine s.par.configLevel, 0x3⟩, ⟨Level.toLine s.par.configLevel, 0x3⟩, ⟨Level.toLine s.par.configLevel, 0x3⟩,
          ⟨Level.toLine s.par.configLevel, 0x2⟩] ++ (initBytes s.par c).flatMap fun e => byteNibbles e.kind e.value)
        (initBytes s.par c) ∧
      t.line = linesAfter .cmd s.par.cmdClear ∧ t.cfg = c ∧ t.ready = true ∧ t.status = .success ∧ t.seq = .idle ∧
      t.inbox = s.inbox ∧ t.par = s.par

/-- R115: the four resync nibbles are 3, 3, 3, 2 in every `init` that runs, whatever the configuration, and six more nibbles
follow them, those of the three bytes. -/
def Obligations.ResyncNibblesAreConstant : Prop :=
  ∀ (s t : State) (c : DriverConfig), exec (.init (some c)) s = .next t →
    ∃ first rest, t.nibLog = s.nibLog ++ first ++ rest ∧ first.map NibbleEntry.value = [0b0011, 0b0011, 0b0011, 0b0010] ∧
      rest.length = 6

/-- R22, D19: `init` with two equal PinRefs has no run. -/
def Obligations.InitRefusesSharedPins : Prop :=
  ∀ (s : State) (c : DriverConfig), s.seq = .idle → ¬ (PinConfig.toList c.pin).Nodup →
    exec (.init (some c)) s = .refused .sharedPins

/-- R181: `clear` sends the clear command and then waits T_CLEAR besides the T_CMD of the byte; CFG is not written. -/
def Obligations.ClearEffect : Prop :=
  ∀ s : State, s.operational = true →
    ∃ t, exec .clear s = .next t ∧ sendsBytes s t [⟨.cmd, s.par.cmdClear⟩] [.delayUs s.cfg.time.tClear] ∧
      keepsControl s t ∧ t.status = .success

/-- R182: `home` sends the home command; one T_CMD wait, and a second one only under HOME_EXTRA_DELAY (D12). -/
def Obligations.HomeEffect : Prop :=
  ∀ s : State, s.operational = true →
    ∃ t, exec .home s = .next t ∧
      sendsBytes s t [⟨.cmd, s.par.cmdHome⟩] (if s.par.homeExtraDelay then [.delayUs s.cfg.time.tCmd] else []) ∧
      keepsControl s t ∧ t.status = .success

/-- R62, R183: `set_cursor` with row < 2 and column < 16 sends the set-DDRAM-address command of row base + column; every other
pair returns InvalidParameter and does nothing else. TWO_LINE is not read. The place of the address in the command byte is PRESUMED:
R113 marks it as general knowledge (log entry 12). -/
def Obligations.SetCursorEffect : Prop :=
  ∀ (s : State) (row column : Nat), s.operational = true →
    if row < 2 ∧ column < 16 then
      ∃ t, exec (.setCursor row column) s = .next t ∧
        sendsBytes s t [⟨.cmd, s.par.cmdSetDdram ||| BitVec.ofNat 8 ((if row = 0 then 0x00 else 0x40) + column)⟩] [] ∧
        keepsControl s t ∧ t.status = .success
    else exec (.setCursor row column) s = .next { s with status := .invalidParameter }

/-- R114, R186: `write_char` sends its byte as character data, every value unchanged, and always succeeds. With `W_OPERAND` above 8 an
operand of 256 or more sends its bits 7..0, which are all that R162 puts on the bus (log entry 19, DEDUCED). -/
def Obligations.WriteCharEffect : Prop :=
  ∀ (s : State) (c : Nat), s.operational = true →
    ∃ t, exec (.writeChar c) s = .next t ∧ sendsBytes s t [⟨.data, BitVec.ofNat 8 c⟩] [] ∧ keepsControl s t ∧ t.status = .success

/-- R187: `write_string` sends the elements before the end marker in order, whatever the marker's value, and nothing for an
empty string; an absent string fails. Where `rest` is not empty the operand holds its own end marker: no word presents such a
string and D17 gives it no run, and that it is cut there is the model's reading of the loop of R187 (log entry 18, DEDUCED). An
element of 256 or more sends its bits 7..0 (log entry 19, DEDUCED). -/
def Obligations.WriteStringEffect : Prop :=
  ∀ (s : State) (body rest : List Nat), s.operational = true → (∀ b ∈ body, b ≠ s.par.stringEnd) →
    (∀ b, rest.head? = some b → b = s.par.stringEnd) →
    (∃ t, exec (.writeString (some (body ++ rest))) s = .next t ∧ sendsBytes s t (body.map fun b => ⟨.data, BitVec.ofNat 8 b⟩) [] ∧
      keepsControl s t ∧ t.status = .success) ∧
    exec (.writeString none) s = .next { s with status := .invalidParameter }

/-- R184: `create_glyph` sends the slot's address, the eight pattern bytes unmasked, index 0 first (D16), and the restore to
DDRAM address 0; a slot above 7 or an absent pattern fails. The CGRAM address of a slot is the spec's general knowledge
(D15). A pattern operand of 256 or more sends its bits 7..0 (log entry 19, DEDUCED). -/
def Obligations.CreateGlyphEffect : Prop :=
  ∀ (s : State) (slot : Nat) (pattern : Option Pattern), s.operational = true →
    (∀ p, pattern = some p → slot ≤ 7 →
      ∃ t, exec (.createGlyph slot pattern) s = .next t ∧ sendsBytes s t (glyphBytes s.par slot p) [] ∧
        keepsControl s t ∧ t.status = .success) ∧
    (pattern = none ∨ 7 < slot → exec (.createGlyph slot pattern) s = .next { s with status := .invalidParameter })

/-- R185: `set_display` sends the display-control command built from its operand, then stores all five flags and leaves the
other sections of CFG; absent flags fail. -/
def Obligations.SetDisplayEffect : Prop :=
  ∀ (s : State) (f : DisplayConfig), s.operational = true →
    (∃ t, exec (.setDisplay (some f)) s = .next t ∧
      sendsBytes s t [⟨.cmd, displayControl s.par f.displayOn f.cursor f.blink⟩] [] ∧
      t.cfg = ⟨s.cfg.pin, s.cfg.time, f⟩ ∧ t.seq = .idle ∧ t.ready = s.ready ∧ t.inbox = s.inbox ∧ t.par = s.par ∧
      t.status = .success) ∧
    exec (.setDisplay none) s = .next { s with status := .invalidParameter }

/-! ### Failures, READY, exclusion -/

/-- R221: the causes of InvalidParameter, complete: a host operation that answers returns it exactly under these conditions. -/
def Obligations.InvalidParameterCauses : Prop :=
  ∀ (op : Instr) (s t : State), isHostOperation op = true → exec op s = .next t →
    (t.status = .invalidParameter ↔ violatesParameters op = true)

/-- R226: a failing operation has no effect but its status. -/
def Obligations.FailureHasNoEffect : Prop :=
  ∀ (op : Instr) (s : State), isHostOperation op = true → violatesParameters op = true → s.seq = .idle →
    (s.ready = true ∨ op = .init none) → exec op s = .next { s with status := .invalidParameter }

/-- R227: after a failure the next host operation runs exactly as if the failed one had never been presented. -/
def Obligations.NextOperationIgnoresAFailure : Prop :=
  ∀ (op next : Instr) (s t : State), isHostOperation op = true → violatesParameters op = true → exec op s = .next t →
    isHostOperation next = true → exec next t = exec next s

/-- R29, R180: every host operation but `init` is refused while READY is false (D5); only `init` makes READY true, and nothing
makes it false. -/
def Obligations.ReadyGatesTheOperations : Prop :=
  (∀ (op : Instr) (s : State), isHostOperation op = true → (∀ c, op ≠ .init c) → s.seq = .idle → s.ready = false →
    exec op s = .refused .notReady) ∧
  (∀ (i : Instr) (s t : State), exec i s = .next t → (t.ready = true ↔ s.ready = true ∨ ∃ c, i = .init (some c)))

/-- R72, D22: while the sequencer is not idle no instruction runs. -/
def Obligations.OneOperationAtATime : Prop :=
  ∀ (i : Instr) (s t : State), s.seq ≠ .idle → exec i s ≠ .next t

/-- R23, R31, R164: no transfer runs before the lines are outputs. R31 says only that a write "requires `LINE[l].mode = output`"; that a
transfer by itself, with some line not an output, is refused whole and by name is the model's reading (log entry 10, DEDUCED). -/
def Obligations.TransfersNeedConfiguredLines : Prop :=
  ∀ (i : Instr) (s : State), isHostOperation i = false → i ≠ .statusSuccess → i ≠ .statusInvalidParameter → i ≠ .statusBusy →
    s.seq = .idle → s.line.allOutput = false → exec i s = .refused .linesNotConfigured

/-- R28: CFG is zero-valued at program start, written by `init` (all three sections) and by `set_display` (the display section
only), and by nothing else; no failing operation writes it. -/
def Obligations.ConfigurationWriters : Prop :=
  State.reset.cfg.time = ⟨0, 0, 0, 0⟩ ∧ State.reset.cfg.disp = ⟨false, false, false, false, false⟩ ∧
  (∀ l, PinConfig.ofLine State.reset.cfg.pin l = PinRef.zero) ∧
  ∀ (i : Instr) (s t : State), exec i s = .next t →
    match i with
    | .init (some c) => t.cfg = c
    | .setDisplay (some f) => t.cfg = { s.cfg with disp := f }
    | _ => t.cfg = s.cfg

/-! ### Counts and times -/

/-- R163: the number of events of each row, whatever its operands and the configured durations; 0 for a failure. The counts
hold with no T_MODE_COMMIT and no HOME_EXTRA_DELAY, the spec's defaults (D9, D12). -/
def Obligations.EventCounts : Prop :=
  ∀ (i : Instr) (s t : State), s.par.tModeCommit = none → s.par.homeExtraDelay = false →
    (∀ bs, i = .writeString (some bs) → ∀ b ∈ bs, b ≠ s.par.stringEnd) → exec i s = .next t →
    t.trace.length = s.trace.length + if violatesParameters i then 0 else eventCount i

/-- R142, R163, R267: the sum of the delay values of each host operation, under the same defaults. -/
def Obligations.LeastBlockingTimes : Prop :=
  ∀ (op : Instr) (s t : State), s.par.tModeCommit = none → s.par.homeExtraDelay = false → isHostOperation op = true →
    violatesParameters op = false → (∀ bs, op = .writeString (some bs) → ∀ b ∈ bs, b ≠ s.par.stringEnd) →
    exec op s = .next t → totalDelay t.trace = totalDelay s.trace + leastTime s.cfg.time op

/-! ### The sequencer event by event -/

/-- R33, R35: with an operation in progress, a step emits exactly the event at its index, which takes effect on the latches;
after the last event the status is Success and the sequencer idle, otherwise the index is one more. -/
def Obligations.EachStepEmitsOneEvent : Prop :=
  ∀ (s : State) (op : Instr) (k : Nat) (ms : List Micro) (m : Micro), s.seq = .running op k →
    expansion s.par s.cfg.time op = some ms → ms[k]? = some m →
    ∃ t, step s = .next t ∧ t.trace = s.trace ++ [m.act.event s.cfg.pin] ∧
      t.line = m.act.onLines s.par.configLevel s.line ∧ t.inbox = s.inbox ∧
      (if k + 1 < ms.length then t.seq = .running op (k + 1) ∧ t.status = s.status ∧ t.cfg = s.cfg ∧ t.ready = s.ready
       else t.seq = .idle ∧ t.status = .success)

/-- R33, D31: running an operation as one transition and running it event by event agree: from the state in which the host has
presented the operation, the machine steps through indexes 0, 1, ..., emitting one event each time, and ends exactly where
`exec` ends; what the event-by-event start refuses, `exec` refuses. -/
def Obligations.EventByEventAgreesWithExec : Prop :=
  ∀ (op : Instr) (s : State), isHostOperation op = true →
    (∀ r, start op s = .refused r → exec op s = .refused r) ∧
    (∀ s₀, start op s = .next s₀ →
      ∃ n, (∀ k, k < n → ∃ t, Host.Core.run Sys2Proof.core k s₀ = .next t ∧ t.seq = .running op k ∧
          t.trace.length = s.trace.length + k) ∧
        Host.Core.run Sys2Proof.core n s₀ = exec op s)

/-! ### Invariants of every step -/

/-- R22, R23, R29, R30, R229: every step between operations keeps the lines sound: READY says that the lines are outputs, the
pins are distinct, E is low, and every latch mirrors what the trace told its pin. -/
def Obligations.StepKeepsLinesSound : Prop :=
  ∀ s t : State, s.LinesSound → step s = .next t → t.LinesSound

/-- R80: every step, also in the middle of an operation, keeps the observer's memories canonical and in range and its address
in its mode's range. -/
def Obligations.StepKeepsLcdSound : Prop :=
  ∀ s t : State, Lcd.Sound s.lcd → step s = .next t → Lcd.Sound t.lcd

/-- R188, R261: with the standard command bytes (D13) no operation that the host presents leaves the attached controller in CGRAM
mode. -/
def Obligations.NoOperationEndsInCgramMode : Prop :=
  ∀ s t : State, Params.standardCommands s.par = true → s.seq = .idle → s.lcd.mode ≠ .cgram → step s = .next t →
    Params.standardCommands t.par = true ∧ t.seq = .idle ∧ t.lcd.mode ≠ .cgram

/-- R116, R164: with the standard command bytes (D13), whatever the host presents, the only command bytes that ever reach the bus are
those of R108 to R113 in the ranges the operations check. -/
def Obligations.OnlyListedCommandsReachTheBus : Prop :=
  ∀ s t : State, Params.standardCommands s.par = true → s.seq = .idle →
    (∀ e ∈ s.byteLog, e.kind = .cmd → isSentCommand e.value = true) → step s = .next t →
    ∀ e ∈ t.byteLog, e.kind = .cmd → isSentCommand e.value = true

/-- R35, R72, R76, R77: the trace and both logs only grow, and no step changes the parameters. -/
def Obligations.StepOnlyAppends : Prop :=
  ∀ s t : State, step s = .next t →
    s.trace <+: t.trace ∧ s.nibLog <+: t.nibLog ∧ s.byteLog <+: t.byteLog ∧ t.par = s.par

/-- R64, R75: nothing the attached controller does can change what the block does: two states that differ in the observer
alone step to states that differ in the observer alone, or are refused alike. -/
def Obligations.DisplayNeverInfluencesTheBlock : Prop :=
  ∀ (s : State) (l : Lcd), sameBlock (step s) (step (s.setLcd l))

/-- R31 and vector V-I8: a pin that the configuration in force does not name keeps what it was last told. -/
def Obligations.UnnamedPinsKeepTheirLevel : Prop :=
  ∀ (i : Instr) (s t : State) (cl : Level) (p : PinRef), exec i s = .next t → p ∉ PinConfig.toList t.cfg.pin →
    replayPin cl p t.trace = replayPin cl p s.trace

/-! ### What the trace shows -/

/-- R76, R266: the nibble log of a host operation can be recovered from its events by scanning for falling edges of E. For
`init` this holds with CONFIG_LEVEL low; with CONFIG_LEVEL high the scan finds one more entry, `0011` with RS high, in front. -/
def Obligations.NibbleLogFollowsFromTheTrace : Prop :=
  ∀ (op : Instr) (s t : State), isHostOperation op = true → s.LinesSound → exec op s = .next t →
    let found := scanNibbles s.par.configLevel t.cfg.pin s.line (t.trace.drop s.trace.length)
    match op with
    | .init (some _) =>
      (s.par.configLevel = .low → t.nibLog = s.nibLog ++ found) ∧
      (s.par.configLevel = .high → ∃ latched, t.nibLog = s.nibLog ++ latched ∧ found = ⟨.high, 0x3⟩ :: latched)
    | _ => t.nibLog = s.nibLog ++ found

/-- R77: the nibbles of a host operation are the halves of its bytes, high half first, after the four resync nibbles in the case
of `init`. -/
def Obligations.NibblesAreTheHalvesOfBytes : Prop :=
  ∀ (op : Instr) (s t : State), isHostOperation op = true → exec op s = .next t →
    ∃ bytes, t.byteLog = s.byteLog ++ bytes ∧
      t.nibLog = s.nibLog ++ (match op with
        | .init (some _) => [0x3, 0x3, 0x3, 0x2].map fun n => ⟨Level.toLine s.par.configLevel, n⟩
        | _ => []) ++ bytes.flatMap fun e => byteNibbles e.kind e.value

/-- R254, R266: in the events of a host operation no line but E is written while E is high, and E is low at the end. For every
operation but a successful `init` this holds whatever CONFIG_LEVEL is, and for `init` with CONFIG_LEVEL low (D7). With CONFIG_LEVEL
high the four data lines of the first nibble of `init` are written while E is high (R266): there it holds from the first fall
of E on, that is after the six configurations, the power-on wait, those four writes and the write that makes E low. -/
def Obligations.LinesAreStableWhileEnableIsHigh : Prop :=
  ∀ (op : Instr) (s t : State), isHostOperation op = true → s.LinesSound → exec op s = .next t →
    ((∀ c, op = .init (some c) → s.par.configLevel = .low) → dataStable t.cfg.pin false (t.trace.drop s.trace.length) = true) ∧
    (∀ c, op = .init (some c) → dataStable t.cfg.pin false (t.trace.drop (s.trace.length + 12)) = true)

/-! ### The attached controller, as the reference observer sees it -/

/-- R82, R84, R86. Every byte transfer, command or data, makes every observer field unknown while the interface is not known to be in
4-bit mode (R82) or the timing is not sane (R86, D25, D30). In 4-bit mode with sane timing a command byte has the effect of its
row; the rows' layout is the spec's general knowledge (log entry 15, PRESUMED). Cells are said through the read of one cell. A
data byte's effect there is `ObserverDataByte`. -/
def Obligations.ObserverCommandTable : Prop :=
  (∀ (blank : Byte) (t : TimingConfig) (e : ByteEntry) (l : Lcd), l.iface = .unknown ∨ TimingConfig.sane t = false →
    Lcd.byte blank t e l = Lcd.allUnknown) ∧
  ∀ (blank : Byte) (t : TimingConfig) (l : Lcd), TimingConfig.sane t = true → l.iface = .fourBit →
    (∀ a : BitVec 7, Lcd.byte blank t ⟨.cmd, 0x80#8 ||| a.setWidth 8⟩ l = { l with mode := .ddram, ac := some a }) ∧
    (∀ a : BitVec 6, Lcd.byte blank t ⟨.cmd, 0x40#8 ||| a.setWidth 8⟩ l = { l with mode := .cgram, ac := some (a.setWidth 7) }) ∧
    (∀ (x n f : Bool) (r : BitVec 2),
      Lcd.byte blank t ⟨.cmd, 0x20#8 ||| flagBit x 4 ||| flagBit n 3 ||| flagBit f 2 ||| r.setWidth 8⟩ l =
        if n && f then { l with twoLine := none, font5x10 := none } else { l with twoLine := some n, font5x10 := some f }) ∧
    (∀ r : BitVec 4, Lcd.byte blank t ⟨.cmd, 0x10#8 ||| r.setWidth 8⟩ l = Lcd.allUnknown) ∧
    (∀ d c b : Bool, Lcd.byte blank t ⟨.cmd, 0x08#8 ||| flagBit d 2 ||| flagBit c 1 ||| flagBit b 0⟩ l =
      { l with on := some d, cursor := some c, blink := some b }) ∧
    (∀ r : BitVec 2, Lcd.byte blank t ⟨.cmd, 0x04#8 ||| r.setWidth 8⟩ l = Lcd.allUnknown) ∧
    (∀ x : Bool, Lcd.byte blank t ⟨.cmd, 0x02#8 ||| flagBit x 0⟩ l = { l with mode := .ddram, ac := some 0 }) ∧
    (∃ m, Lcd.byte blank t ⟨.cmd, 0x01#8⟩ l = { l with ddram := m, mode := .ddram, ac := some 0 } ∧
      ∀ a, Memory.read m a = if onScreen a then some blank else none) ∧
    Lcd.byte blank t ⟨.cmd, 0x00#8⟩ l = Lcd.allUnknown

/-- R85, R70: a data byte in 4-bit mode with sane timing is stored at the current address (five bits of it in CGRAM), every
other cell of both memories reads as before, and the address moves forward by one or becomes unknown at the end of the row or
of CGRAM. Elsewhere, the mode or the address being unknown, every cell becomes unknown and the address stays as it was; so also at a
known address off the screen or, in CGRAM mode, above 63, which the last branch of R85 is read to take in (log entry 14,
DEDUCED). What follows the last column is the spec's decision (D24). While the interface is unknown or the timing is not sane a data
byte makes every field unknown: the first clause of `ObserverCommandTable`. -/
def Obligations.ObserverDataByte : Prop :=
  ∀ (blank : Byte) (t : TimingConfig) (l : Lcd) (v : Byte), TimingConfig.sane t = true → l.iface = .fourBit →
    let l' := Lcd.byte blank t ⟨.data, v⟩ l
    l'.iface = .fourBit ∧ l'.mode = l.mode ∧ l'.on = l.on ∧ l'.cursor = l.cursor ∧ l'.blink = l.blink ∧
    l'.twoLine = l.twoLine ∧ l'.font5x10 = l.font5x10 ∧
    (∀ a, l.mode = .ddram → l.ac = some a → onScreen a.toNat = true →
      Memory.read l'.ddram a.toNat = some v ∧ (∀ b, b ≠ a.toNat → Memory.read l'.ddram b = Memory.read l.ddram b) ∧
      l'.cgram = l.cgram ∧ l'.ac = if onScreen (a.toNat + 1) then some (BitVec.ofNat 7 (a.toNat + 1)) else none) ∧
    (∀ a, l.mode = .cgram → l.ac = some a → a.toNat < 64 →
      Memory.read l'.cgram a.toNat = some (BitVec.ofNat 8 (v.toNat % 32)) ∧
      (∀ b, b ≠ a.toNat → Memory.read l'.cgram b = Memory.read l.cgram b) ∧
      l'.ddram = l.ddram ∧ l'.ac = if a.toNat < 63 then some (BitVec.ofNat 7 (a.toNat + 1)) else none) ∧
    (l.mode = .unknown ∨ l.ac = none ∨
        (∃ a, l.ac = some a ∧ (l.mode = .ddram ∧ onScreen a.toNat = false ∨ l.mode = .cgram ∧ 64 ≤ a.toNat)) →
      (∀ b, Memory.read l'.ddram b = none) ∧ (∀ b, Memory.read l'.cgram b = none) ∧ l'.ac = l.ac)

/-- R82, R84, R252 and vector V-O1: after `init` with sane timing, CONFIG_LEVEL low (D7) and the standard command bytes (D13), the
attached controller is in 4-bit mode and in phase, lines, font and display as configured (both unknown for two lines with the
5x10 font), screen blank, address 0, DDRAM mode; CGRAM reads as before. -/
def Obligations.InitMakesTheDisplayKnown : Prop :=
  ∀ (s : State) (c : DriverConfig), s.seq = .idle → PinConfig.distinct c.pin = true → Params.standardCommands s.par = true →
    s.par.configLevel = .low → TimingConfig.sane c.time = true →
    ∃ t, exec (.init (some c)) s = .next t ∧
      t.lcd.iface = .fourBit ∧ t.lcd.mode = .ddram ∧ t.lcd.ac = some 0 ∧
      (∀ a, Memory.read t.lcd.ddram a = if onScreen a then some s.par.blank else none) ∧
      (∀ a, Memory.read t.lcd.cgram a = Memory.read s.lcd.cgram a) ∧
      t.lcd.on = some c.disp.displayOn ∧ t.lcd.cursor = some c.disp.cursor ∧ t.lcd.blink = some c.disp.blink ∧
      t.lcd.twoLine = (if c.disp.twoLine && c.disp.font5x10 then none else some c.disp.twoLine) ∧
      t.lcd.font5x10 = (if c.disp.twoLine && c.disp.font5x10 then none else some c.disp.font5x10)

/-- R82, R86, R266 and vectors V-O7, V-O8: after `init` with a delay below its minimum, or with CONFIG_LEVEL high, nothing is known
of the attached controller (D23, D25), whatever was known before. R82 and D23 say that with CONFIG_LEVEL high the interface stays
unknown; that a controller already in 4-bit mode is lost too is the model's choice (log entry 13, DEDUCED). -/
def Obligations.InitCanLoseTheDisplay : Prop :=
  ∀ (s t : State) (c : DriverConfig), TimingConfig.sane c.time = false ∨ s.par.configLevel = .high →
    exec (.init (some c)) s = .next t → t.lcd = Lcd.allUnknown

/-- R63, R84, R85, R87, R188, R268 and vector V-O6: a glyph lands in its slot, five bits a row, and every other cell of both memories
reads as before; the controller ends in DDRAM mode at address 0, and its display, cursor, blink, lines and font are as before. For
a pattern operand of 256 or more the five bits are those of its low byte (log entry 19, DEDUCED). -/
def Obligations.GlyphReachesItsSlot : Prop :=
  ∀ (s : State) (slot : Nat) (p : Pattern), s.operational = true → Params.standardCommands s.par = true →
    TimingConfig.sane s.cfg.time = true → s.lcd.iface = .fourBit → slot ≤ 7 →
    ∃ t, exec (.createGlyph slot (some p)) s = .next t ∧ t.lcd.iface = .fourBit ∧ t.lcd.mode = .ddram ∧ t.lcd.ac = some 0 ∧
      (∀ i v, (Pattern.toList p)[i]? = some v →
        Memory.read t.lcd.cgram (8 * slot + i) = some (BitVec.ofNat 8 (v % 32))) ∧
      (∀ a, a < 8 * slot ∨ 8 * slot + 8 ≤ a → Memory.read t.lcd.cgram a = Memory.read s.lcd.cgram a) ∧
      (∀ a, Memory.read t.lcd.ddram a = Memory.read s.lcd.ddram a) ∧
      t.lcd.on = s.lcd.on ∧ t.lcd.cursor = s.lcd.cursor ∧ t.lcd.blink = s.lcd.blink ∧ t.lcd.twoLine = s.lcd.twoLine ∧
      t.lcd.font5x10 = s.lcd.font5x10

/-- R70, R85, R87: text written in DDRAM mode at a known address appears there element by element, in order, as long as it stays on
screen; every other cell reads as before, and the address ends behind the text, or unknown at the end of the row (D24). An element
of 256 or more appears as its low byte, which is all that goes over the bus (log entry 19, DEDUCED). The empty text sends nothing
and leaves the controller as it is: `WriteStringEffect`. -/
def Obligations.TextReachesTheScreen : Prop :=
  ∀ (s : State) (text : List Nat) (a : BitVec 7), s.operational = true → TimingConfig.sane s.cfg.time = true →
    s.lcd.iface = .fourBit → s.lcd.mode = .ddram → s.lcd.ac = some a → (∀ b ∈ text, b ≠ s.par.stringEnd) → text ≠ [] →
    (∀ i, i < text.length → onScreen (a.toNat + i) = true) →
    ∃ t, exec (.writeString (some text)) s = .next t ∧ t.lcd.mode = .ddram ∧
      (∀ i v, text[i]? = some v → Memory.read t.lcd.ddram (a.toNat + i) = some (BitVec.ofNat 8 v)) ∧
      (∀ b, b < a.toNat ∨ a.toNat + text.length ≤ b → Memory.read t.lcd.ddram b = Memory.read s.lcd.ddram b) ∧
      t.lcd.cgram = s.lcd.cgram ∧
      t.lcd.ac = if onScreen (a.toNat + text.length) then some (BitVec.ofNat 7 (a.toNat + text.length)) else none

/-- R61, R84, R185, R265: `set_display` reaches the attached controller's display, cursor and blink, and not its lines and font, which
then disagree with CFG if the flags changed; its memories and address stay. -/
def Obligations.SetDisplayLeavesLinesAndFont : Prop :=
  ∀ (s : State) (f : DisplayConfig), s.operational = true → Params.standardCommands s.par = true →
    TimingConfig.sane s.cfg.time = true → s.lcd.iface = .fourBit →
    ∃ t, exec (.setDisplay (some f)) s = .next t ∧
      t.lcd = { s.lcd with on := some f.displayOn, cursor := some f.cursor, blink := some f.blink } ∧
      t.cfg.disp.twoLine = f.twoLine ∧ t.cfg.disp.font5x10 = f.font5x10

/-- R69, R84, R181 (the document's idempotence property, vector S5): clearing twice emits the same events twice, and the address
returns to 0 both times. -/
def Obligations.ClearIsIdempotentOnTheAddress : Prop :=
  ∀ s : State, s.operational = true → Params.standardCommands s.par = true → TimingConfig.sane s.cfg.time = true →
    s.lcd.iface = .fourBit →
    ∃ t u events, exec .clear s = .next t ∧ exec .clear t = .next u ∧ t.trace = s.trace ++ events ∧
      u.trace = t.trace ++ events ∧ t.lcd.ac = some 0 ∧ t.lcd.mode = .ddram ∧ u.lcd = t.lcd

/-- R69, log entry 8 (the model's choice): a bare pulse or nibble outside the resync sequence leaves nothing known of the attached
controller. -/
def Obligations.StrayTransfersLoseTheDisplay : Prop :=
  ∀ (i : Instr) (s t : State), i = .pulseEnable ∨ (∃ v, i = .writeNibble v) ∨ i = .resync8Bit ∨ i = .resyncCommit4Bit →
    exec i s = .next t → t.lcd = Lcd.allUnknown

/-- R85: the attached controller's memory: a write shows at its address, every other address reads as before, and the canonical form
is kept. -/
def Obligations.MemoryWriteThenRead : Prop :=
  ∀ (m : Memory) (a b : Nat) (v : Byte),
    Memory.read (Memory.write m a v) b = (if b = a then some v else Memory.read m b) ∧
    (Memory.wf m → Memory.wf (Memory.write m a v))

/-- R61, R62: row and column translation. -/
def Obligations.RowAndColumnTranslation : Prop :=
  ∀ row column : Nat, ddramAddr row column =
    if row < 2 ∧ column < 16 then some (BitVec.ofNat 7 (0x40 * row + column)) else none

/-! ### What the host can reach, and the widths -/

/-- R101, R164: the host reaches the eight operations and nothing else. The list of presented requests, the bits they are made of and
so the refusal of a request that ends early, and the sequencer's internal position are the model's own (log entries 1, 5 and 7,
DESIGN CHOICE): R101 and R164 say what the host can ask for, not how. Whatever request is presented to an idle block, the step either
runs one of the eight operations, or refuses a request that ends early (three bits name an operation always: no selector is
reserved); and no step leaves the sequencer before a word of the inner layers, so nothing the host presents makes a bare pulse, a
bare nibble, a raw byte frame or a status of its own choosing run. -/
def Obligations.TheHostReachesOnlyTheEightOperations : Prop :=
  (∀ (s : State) (w : List Bool) (ws : List (List Bool)), s.seq = .idle → s.inbox = w :: ws →
    (∃ i, isHostOperation i = true ∧ decode s.par ⟨.host, w⟩ = .ok i ∧ step s = exec i (s.setInbox ws)) ∨
    step s = .refused (.undecodable .truncated)) ∧
  (∀ s t : State, step s = .next t → ∀ w, t.seq ≠ .internal w)

/-- R8, R24, D3: the timing registers stay in their width `W_TIME`, whatever it is, at every step. -/
def Obligations.StepKeepsTimingInItsWidth : Prop :=
  ∀ s t : State, TimingConfig.fits s.par s.cfg.time = true → step s = .next t → TimingConfig.fits t.par t.cfg.time = true
end

