-- ==== Sys2Proof/Laws/Decode.lean ====
section
/-! SUPPORT. Each field of a word is read back from the bits it was written as. -/

namespace Sys2Proof

theorem byteOfBits_getLsbD (v : Byte) :
    byteOfBits (v.getLsbD 0) (v.getLsbD 1) (v.getLsbD 2) (v.getLsbD 3) (v.getLsbD 4) (v.getLsbD 5) (v.getLsbD 6)
      (v.getLsbD 7) = v := by
  revert v; decide

theorem length_bitsOfNat (n v : Nat) : (bitsOfNat n v).length = n := by
  induction n generalizing v with
  | zero => rfl
  | succ n ih => rw [bitsOfNat, List.length_cons, ih]

/-- A number that fits its width is read back. -/
theorem takeBits_bitsOfNat {n v : Nat} (h : fitsBits n v = true) (rest : List Bool) :
    takeBits n (bitsOfNat n v ++ rest) = .ok (v, rest) := by
  simp only [fitsBits, decide_eq_true_eq] at h
  induction n generalizing v with
  | zero =>
    obtain rfl : v = 0 := by omega
    rfl
  | succ n ih =>
    simp only [bitsOfNat, List.cons_append, takeBits, ih (v := v / 2) (by omega)]
    congr 2
    rcases Nat.mod_two_eq_zero_or_one v with h | h <;> simp [h] <;> omega

/-- What is read fits the width, and the rest of the word is no longer than the word less the bits read. -/
theorem takeBits_eq_ok {n v : Nat} {w w' : List Bool} (h : takeBits n w = .ok (v, w')) :
    fitsBits n v = true ∧ w'.length + n = w.length := by
  induction n generalizing v w with
  | zero => obtain ⟨rfl, rfl⟩ := Prod.mk.inj (Except.ok.inj h); simp [fitsBits]
  | succ n ih =>
    cases w with
    | nil => cases h
    | cons b w =>
      simp only [takeBits] at h
      split at h
      · rename_i hv
        obtain ⟨rfl, rfl⟩ := Prod.mk.inj (Except.ok.inj h)
        obtain ⟨h1, h2⟩ := ih hv
        simp only [fitsBits, decide_eq_true_eq, List.length_cons] at *
        have := Bool.toNat_le b
        omega
      · cases h

theorem takeOperand_operandBits {par : Params} {v : Nat} (h : par.fitsOperand v = true) (rest : List Bool) :
    takeOperand par (operandBits par v ++ rest) = .ok (v, rest) := takeBits_bitsOfNat h rest

theorem takeNat_natBitsFuel (fuel n : Nat) (h : n ≤ fuel) (rest : List Bool) :
    takeNat (natBitsFuel fuel n ++ rest) = .ok (n, rest) := by
  induction fuel generalizing n with
  | zero =>
    obtain rfl : n = 0 := by omega
    rfl
  | succ fuel ih =>
    unfold natBitsFuel
    split
    · rename_i h0
      subst h0
      rfl
    · simp only [List.cons_append, takeNat, ih (n / 2) (by omega)]
      congr 2
      rcases Nat.mod_two_eq_zero_or_one n with h | h <;> simp [h] <;> omega

theorem takeNat_natBits (n : Nat) (rest : List Bool) : takeNat (natBits n ++ rest) = .ok (n, rest) :=
  takeNat_natBitsFuel n n (Nat.le_refl _) rest

theorem takeTime_timeBits {par : Params} {n : Nat} (h : par.fitsTime n = true) (rest : List Bool) :
    takeTime par (timeBits par n ++ rest) = .ok (n, rest) := by
  unfold takeTime timeBits
  unfold Params.fitsTime at h
  cases hw : par.wTime with
  | none => exact takeNat_natBits n rest
  | some width => rw [hw] at h; exact takeBits_bitsOfNat h rest

theorem takePinRef_pinRefBits (p : PinRef) (rest : List Bool) : takePinRef (pinRefBits p ++ rest) = .ok (p, rest) := by
  simp [takePinRef, pinRefBits, takeNat_natBits, bind, Except.bind, pure, Except.pure]

theorem takePinConfig_pinConfigBits (c : PinConfig) (rest : List Bool) :
    takePinConfig (pinConfigBits c ++ rest) = .ok (c, rest) := by
  simp [takePinConfig, pinConfigBits, takePinRef_pinRefBits, bind, Except.bind, pure, Except.pure]

theorem takeTimingConfig_timingConfigBits {par : Params} {t : TimingConfig} (h : TimingConfig.fits par t = true)
    (rest : List Bool) : takeTimingConfig par (timingConfigBits par t ++ rest) = .ok (t, rest) := by
  simp only [TimingConfig.fits, Bool.and_eq_true] at h
  obtain ⟨⟨⟨h0, h1⟩, h2⟩, h3⟩ := h
  simp [takeTimingConfig, timingConfigBits, takeTime_timeBits, *, bind, Except.bind, pure, Except.pure]

theorem takeDisplayConfig_displayConfigBits (d : DisplayConfig) (rest : List Bool) :
    takeDisplayConfig (displayConfigBits d ++ rest) = .ok (d, rest) := by
  simp [takeDisplayConfig, displayConfigBits, takeBit, bind, Except.bind, pure, Except.pure]

theorem takePattern_patternBits {par : Params} {p : Pattern} (h : Pattern.fits par p = true) (rest : List Bool) :
    takePattern par (patternBits par p ++ rest) = .ok (p, rest) := by
  simp only [Pattern.fits, Bool.and_eq_true] at h
  obtain ⟨⟨⟨⟨⟨⟨⟨h0, h1⟩, h2⟩, h3⟩, h4⟩, h5⟩, h6⟩, h7⟩ := h
  simp [takePattern, patternBits, takeOperand_operandBits, *, bind, Except.bind, pure, Except.pure]

/-- The elements of a string that holds no marker are read back, with enough fuel for one element at a time. -/
theorem takeStringFuel_stringBits {par : Params} (hm : par.fitsOperand par.stringEnd = true) (s : List Nat)
    (hs : ∀ b ∈ s, par.fitsOperand b = true ∧ b ≠ par.stringEnd) (fuel : Nat) (hf : s.length < fuel) (rest : List Bool) :
    takeStringFuel par fuel (stringBits par s ++ rest) = .ok (s, rest) := by
  induction s generalizing fuel with
  | nil =>
    obtain _ | fuel := fuel
    · cases hf
    · simp [stringBits, takeStringFuel, takeOperand_operandBits hm]
  | cons b s ih =>
    obtain _ | fuel := fuel
    · cases hf
    · have hb := hs b (by simp)
      have := ih (fun c hc => hs c (by simp [hc])) fuel (by simpa using hf)
      simp only [stringBits, List.flatMap_cons, List.append_assoc] at this ⊢
      simp [takeStringFuel, takeOperand_operandBits hb.1, hb.2, this]

/-- An element other than the marker has at least one bit, so a word is longer than its string. -/
theorem length_le_stringBits {par : Params} (hm : par.fitsOperand par.stringEnd = true) (s : List Nat)
    (hs : ∀ b ∈ s, par.fitsOperand b = true ∧ b ≠ par.stringEnd) : s.length ≤ (stringBits par s).length := by
  have hl : (stringBits par s).length = (s.length + 1) * par.wOperand := by
    simp [stringBits, operandBits, length_bitsOfNat, List.length_flatMap, Nat.succ_mul]
  cases s with
  | nil => simp
  | cons b s =>
    have hb := hs b (by simp)
    have : 1 ≤ par.wOperand := by
      by_contra h0
      obtain h0 : par.wOperand = 0 := by omega
      simp only [Params.fitsOperand, fitsBits, h0, pow_zero, decide_eq_true_eq, Nat.lt_one_iff] at hb hm
      exact hb.2 (hb.1.trans hm.symm)
    rw [hl]
    exact le_trans (Nat.le_succ _) (Nat.le_mul_of_pos_right _ this)

theorem takeString_stringBits {par : Params} (hm : par.fitsOperand par.stringEnd = true) (s : List Nat)
    (hs : ∀ b ∈ s, par.fitsOperand b = true ∧ b ≠ par.stringEnd) (rest : List Bool) :
    takeString par (stringBits par s ++ rest) = .ok (s, rest) := by
  refine takeStringFuel_stringBits hm s hs _ ?_ rest
  have := length_le_stringBits hm s hs
  simp only [List.length_append]
  omega

theorem takeOptional_optionalBits {α : Type} (bits : α → List Bool) (take : List Bool → Except DecodeError (α × List Bool))
    (x : Option α) (rest : List Bool) (h : ∀ y, x = some y → take (bits y ++ rest) = .ok (y, rest)) :
    takeOptional take (optionalBits bits x ++ rest) = .ok (x, rest) := by
  cases x with
  | none => rfl
  | some y => simp [takeOptional, optionalBits, takeBit, h y rfl, bind, Except.bind, pure, Except.pure]

end Sys2Proof
end

