-- ==== Sys2Proof/Laws/State.lean ====
section
/-! SUPPORT. One lemma per field per named update of the state, so that no later proof unfolds a record update. -/

namespace Sys2Proof.Machine

variable (s : State)

@[simp] theorem State.logNibble_cfg (n : Nibble) : (s.logNibble n).cfg = s.cfg := rfl
@[simp] theorem State.logNibble_line (n : Nibble) : (s.logNibble n).line = s.line := rfl
@[simp] theorem State.logNibble_seq (n : Nibble) : (s.logNibble n).seq = s.seq := rfl
@[simp] theorem State.logNibble_status (n : Nibble) : (s.logNibble n).status = s.status := rfl
@[simp] theorem State.logNibble_ready (n : Nibble) : (s.logNibble n).ready = s.ready := rfl
@[simp] theorem State.logNibble_trace (n : Nibble) : (s.logNibble n).trace = s.trace := rfl
@[simp] theorem State.logNibble_nibLog (n : Nibble) : (s.logNibble n).nibLog = s.nibLog ++ [⟨s.line.rs.level, n⟩] := rfl
@[simp] theorem State.logNibble_byteLog (n : Nibble) : (s.logNibble n).byteLog = s.byteLog := rfl
@[simp] theorem State.logNibble_lcd (n : Nibble) : (s.logNibble n).lcd = s.lcd := rfl
@[simp] theorem State.logNibble_inbox (n : Nibble) : (s.logNibble n).inbox = s.inbox := rfl
@[simp] theorem State.logNibble_par (n : Nibble) : (s.logNibble n).par = s.par := rfl

@[simp] theorem State.logByte_cfg (e : ByteEntry) : (s.logByte e).cfg = s.cfg := rfl
@[simp] theorem State.logByte_line (e : ByteEntry) : (s.logByte e).line = s.line := rfl
@[simp] theorem State.logByte_seq (e : ByteEntry) : (s.logByte e).seq = s.seq := rfl
@[simp] theorem State.logByte_status (e : ByteEntry) : (s.logByte e).status = s.status := rfl
@[simp] theorem State.logByte_ready (e : ByteEntry) : (s.logByte e).ready = s.ready := rfl
@[simp] theorem State.logByte_trace (e : ByteEntry) : (s.logByte e).trace = s.trace := rfl
@[simp] theorem State.logByte_nibLog (e : ByteEntry) : (s.logByte e).nibLog = s.nibLog := rfl
@[simp] theorem State.logByte_byteLog (e : ByteEntry) : (s.logByte e).byteLog = s.byteLog ++ [e] := rfl
@[simp] theorem State.logByte_lcd (e : ByteEntry) : (s.logByte e).lcd = s.lcd := rfl
@[simp] theorem State.logByte_inbox (e : ByteEntry) : (s.logByte e).inbox = s.inbox := rfl
@[simp] theorem State.logByte_par (e : ByteEntry) : (s.logByte e).par = s.par := rfl

@[simp] theorem State.setLcd_cfg (l : Lcd) : (s.setLcd l).cfg = s.cfg := rfl
@[simp] theorem State.setLcd_line (l : Lcd) : (s.setLcd l).line = s.line := rfl
@[simp] theorem State.setLcd_seq (l : Lcd) : (s.setLcd l).seq = s.seq := rfl
@[simp] theorem State.setLcd_status (l : Lcd) : (s.setLcd l).status = s.status := rfl
@[simp] theorem State.setLcd_ready (l : Lcd) : (s.setLcd l).ready = s.ready := rfl
@[simp] theorem State.setLcd_trace (l : Lcd) : (s.setLcd l).trace = s.trace := rfl
@[simp] theorem State.setLcd_nibLog (l : Lcd) : (s.setLcd l).nibLog = s.nibLog := rfl
@[simp] theorem State.setLcd_byteLog (l : Lcd) : (s.setLcd l).byteLog = s.byteLog := rfl
@[simp] theorem State.setLcd_lcd (l : Lcd) : (s.setLcd l).lcd = l := rfl
@[simp] theorem State.setLcd_inbox (l : Lcd) : (s.setLcd l).inbox = s.inbox := rfl
@[simp] theorem State.setLcd_par (l : Lcd) : (s.setLcd l).par = s.par := rfl

@[simp] theorem State.push_cfg (a : Action) : (s.push a).cfg = s.cfg := rfl
@[simp] theorem State.push_line (a : Action) : (s.push a).line = a.onLines s.par.configLevel s.line := rfl
@[simp] theorem State.push_seq (a : Action) : (s.push a).seq = s.seq := rfl
@[simp] theorem State.push_status (a : Action) : (s.push a).status = s.status := rfl
@[simp] theorem State.push_ready (a : Action) : (s.push a).ready = s.ready := rfl
@[simp] theorem State.push_trace (a : Action) : (s.push a).trace = s.trace ++ [a.event s.cfg.pin] := rfl
@[simp] theorem State.push_nibLog (a : Action) : (s.push a).nibLog = s.nibLog := rfl
@[simp] theorem State.push_byteLog (a : Action) : (s.push a).byteLog = s.byteLog := rfl
@[simp] theorem State.push_lcd (a : Action) : (s.push a).lcd = s.lcd := rfl
@[simp] theorem State.push_inbox (a : Action) : (s.push a).inbox = s.inbox := rfl
@[simp] theorem State.push_par (a : Action) : (s.push a).par = s.par := rfl

@[simp] theorem State.deliver_cfg (st : Status) : (s.deliver st).cfg = s.cfg := rfl
@[simp] theorem State.deliver_line (st : Status) : (s.deliver st).line = s.line := rfl
@[simp] theorem State.deliver_seq (st : Status) : (s.deliver st).seq = .idle := rfl
@[simp] theorem State.deliver_status (st : Status) : (s.deliver st).status = st := rfl
@[simp] theorem State.deliver_ready (st : Status) : (s.deliver st).ready = s.ready := rfl
@[simp] theorem State.deliver_trace (st : Status) : (s.deliver st).trace = s.trace := rfl
@[simp] theorem State.deliver_nibLog (st : Status) : (s.deliver st).nibLog = s.nibLog := rfl
@[simp] theorem State.deliver_byteLog (st : Status) : (s.deliver st).byteLog = s.byteLog := rfl
@[simp] theorem State.deliver_lcd (st : Status) : (s.deliver st).lcd = s.lcd := rfl
@[simp] theorem State.deliver_inbox (st : Status) : (s.deliver st).inbox = s.inbox := rfl
@[simp] theorem State.deliver_par (st : Status) : (s.deliver st).par = s.par := rfl

@[simp] theorem State.storeConfig_cfg (c : DriverConfig) : (s.storeConfig c).cfg = c := rfl
@[simp] theorem State.storeConfig_line (c : DriverConfig) : (s.storeConfig c).line = s.line := rfl
@[simp] theorem State.storeConfig_seq (c : DriverConfig) : (s.storeConfig c).seq = s.seq := rfl
@[simp] theorem State.storeConfig_status (c : DriverConfig) : (s.storeConfig c).status = s.status := rfl
@[simp] theorem State.storeConfig_ready (c : DriverConfig) : (s.storeConfig c).ready = s.ready := rfl
@[simp] theorem State.storeConfig_trace (c : DriverConfig) : (s.storeConfig c).trace = s.trace := rfl
@[simp] theorem State.storeConfig_nibLog (c : DriverConfig) : (s.storeConfig c).nibLog = s.nibLog := rfl
@[simp] theorem State.storeConfig_byteLog (c : DriverConfig) : (s.storeConfig c).byteLog = s.byteLog := rfl
@[simp] theorem State.storeConfig_lcd (c : DriverConfig) : (s.storeConfig c).lcd = s.lcd := rfl
@[simp] theorem State.storeConfig_inbox (c : DriverConfig) : (s.storeConfig c).inbox = s.inbox := rfl
@[simp] theorem State.storeConfig_par (c : DriverConfig) : (s.storeConfig c).par = s.par := rfl

@[simp] theorem State.storeDisplay_cfg (d : DisplayConfig) : (s.storeDisplay d).cfg = { s.cfg with disp := d } := rfl
@[simp] theorem State.storeDisplay_line (d : DisplayConfig) : (s.storeDisplay d).line = s.line := rfl
@[simp] theorem State.storeDisplay_seq (d : DisplayConfig) : (s.storeDisplay d).seq = s.seq := rfl
@[simp] theorem State.storeDisplay_status (d : DisplayConfig) : (s.storeDisplay d).status = s.status := rfl
@[simp] theorem State.storeDisplay_ready (d : DisplayConfig) : (s.storeDisplay d).ready = s.ready := rfl
@[simp] theorem State.storeDisplay_trace (d : DisplayConfig) : (s.storeDisplay d).trace = s.trace := rfl
@[simp] theorem State.storeDisplay_nibLog (d : DisplayConfig) : (s.storeDisplay d).nibLog = s.nibLog := rfl
@[simp] theorem State.storeDisplay_byteLog (d : DisplayConfig) : (s.storeDisplay d).byteLog = s.byteLog := rfl
@[simp] theorem State.storeDisplay_lcd (d : DisplayConfig) : (s.storeDisplay d).lcd = s.lcd := rfl
@[simp] theorem State.storeDisplay_inbox (d : DisplayConfig) : (s.storeDisplay d).inbox = s.inbox := rfl
@[simp] theorem State.storeDisplay_par (d : DisplayConfig) : (s.storeDisplay d).par = s.par := rfl

@[simp] theorem State.setReady_cfg : (s.setReady).cfg = s.cfg := rfl
@[simp] theorem State.setReady_line : (s.setReady).line = s.line := rfl
@[simp] theorem State.setReady_seq : (s.setReady).seq = s.seq := rfl
@[simp] theorem State.setReady_status : (s.setReady).status = s.status := rfl
@[simp] theorem State.setReady_ready : (s.setReady).ready = true := rfl
@[simp] theorem State.setReady_trace : (s.setReady).trace = s.trace := rfl
@[simp] theorem State.setReady_nibLog : (s.setReady).nibLog = s.nibLog := rfl
@[simp] theorem State.setReady_byteLog : (s.setReady).byteLog = s.byteLog := rfl
@[simp] theorem State.setReady_lcd : (s.setReady).lcd = s.lcd := rfl
@[simp] theorem State.setReady_inbox : (s.setReady).inbox = s.inbox := rfl
@[simp] theorem State.setReady_par : (s.setReady).par = s.par := rfl

@[simp] theorem State.setSeq_cfg (q : Seq) : (s.setSeq q).cfg = s.cfg := rfl
@[simp] theorem State.setSeq_line (q : Seq) : (s.setSeq q).line = s.line := rfl
@[simp] theorem State.setSeq_seq (q : Seq) : (s.setSeq q).seq = q := rfl
@[simp] theorem State.setSeq_status (q : Seq) : (s.setSeq q).status = s.status := rfl
@[simp] theorem State.setSeq_ready (q : Seq) : (s.setSeq q).ready = s.ready := rfl
@[simp] theorem State.setSeq_trace (q : Seq) : (s.setSeq q).trace = s.trace := rfl
@[simp] theorem State.setSeq_nibLog (q : Seq) : (s.setSeq q).nibLog = s.nibLog := rfl
@[simp] theorem State.setSeq_byteLog (q : Seq) : (s.setSeq q).byteLog = s.byteLog := rfl
@[simp] theorem State.setSeq_lcd (q : Seq) : (s.setSeq q).lcd = s.lcd := rfl
@[simp] theorem State.setSeq_inbox (q : Seq) : (s.setSeq q).inbox = s.inbox := rfl
@[simp] theorem State.setSeq_par (q : Seq) : (s.setSeq q).par = s.par := rfl

@[simp] theorem State.setInbox_cfg (ws : List (List Bool)) : (s.setInbox ws).cfg = s.cfg := rfl
@[simp] theorem State.setInbox_line (ws : List (List Bool)) : (s.setInbox ws).line = s.line := rfl
@[simp] theorem State.setInbox_seq (ws : List (List Bool)) : (s.setInbox ws).seq = s.seq := rfl
@[simp] theorem State.setInbox_status (ws : List (List Bool)) : (s.setInbox ws).status = s.status := rfl
@[simp] theorem State.setInbox_ready (ws : List (List Bool)) : (s.setInbox ws).ready = s.ready := rfl
@[simp] theorem State.setInbox_trace (ws : List (List Bool)) : (s.setInbox ws).trace = s.trace := rfl
@[simp] theorem State.setInbox_nibLog (ws : List (List Bool)) : (s.setInbox ws).nibLog = s.nibLog := rfl
@[simp] theorem State.setInbox_byteLog (ws : List (List Bool)) : (s.setInbox ws).byteLog = s.byteLog := rfl
@[simp] theorem State.setInbox_lcd (ws : List (List Bool)) : (s.setInbox ws).lcd = s.lcd := rfl
@[simp] theorem State.setInbox_inbox (ws : List (List Bool)) : (s.setInbox ws).inbox = ws := rfl
@[simp] theorem State.setInbox_par (ws : List (List Bool)) : (s.setInbox ws).par = s.par := rfl

end Sys2Proof.Machine
end

