-- ==== Sys2Proof/Laws/Ops.lean ====
section
/-! SUPPORT. What each shared operation can do, said once: latches, one event, a sequence of events, the guards, the two
shapes of an instruction (a transfer, a host operation), and each sequence as a whole. -/

namespace Sys2Proof.Machine

/-! ### Latches -/

theorem Lines.get_set (ls : Lines) (l k : Line) (x : Latch) :
    (ls.set l x).get k = if k = l then x else ls.get k := by
  cases l <;> cases k <;> rfl

theorem Lines.allOutput_iff (ls : Lines) : ls.allOutput = true ↔ ∀ l, (ls.get l).mode = .output := by
  refine ⟨fun h l => ?_, fun h => ?_⟩
  · simp only [Lines.allOutput, Bool.and_eq_true, decide_eq_true_eq] at h
    obtain ⟨⟨⟨⟨⟨h1, h2⟩, h3⟩, h4⟩, h5⟩, h6⟩ := h
    cases l <;> assumption
  · simpa [Lines.allOutput] using ⟨⟨⟨⟨⟨h .rs, h .e⟩, h .d0⟩, h .d1⟩, h .d2⟩, h .d3⟩

theorem Lines.ext_get {a b : Lines} (h : ∀ l, a.get l = b.get l) : a = b := by
  have h1 := h .rs; have h2 := h .e; have h3 := h .d0; have h4 := h .d1; have h5 := h .d2; have h6 := h .d3
  cases a; cases b; simp only [Lines.get] at *; simp [*]

/-- An event on pin `p` changes exactly the lines on that pin (R76). -/
theorem levelsAfter_get (c : PinConfig) (p : PinRef) (v : LineLevel) (ls : Lines) (l : Line) :
    (levelsAfter c p v ls).get l = if PinConfig.ofLine c l = p then ⟨(ls.get l).mode, v⟩ else ls.get l := by
  cases l <;> rfl

theorem PinConfig.ofLine_mem (c : PinConfig) (l : Line) : PinConfig.ofLine c l ∈ PinConfig.toList c := by
  cases l <;> simp [PinConfig.ofLine, PinConfig.toList]

/-- With pairwise different PinRefs a pin names one line (R22). -/
theorem PinConfig.ofLine_inj {c : PinConfig} (h : PinConfig.distinct c = true) {l k : Line}
    (e : PinConfig.ofLine c l = PinConfig.ofLine c k) : l = k := by
  simp only [PinConfig.distinct, PinConfig.toList, decide_eq_true_eq, List.nodup_cons, List.mem_cons, List.not_mem_nil,
    or_false, not_or] at h
  obtain ⟨⟨a1, a2, a3, a4, a5⟩, ⟨b1, b2, b3, b4⟩, ⟨c1, c2, c3⟩, ⟨d1, d2⟩, e1, _⟩ := h
  cases l <;> cases k <;> simp only [PinConfig.ofLine] at e <;>
    first | rfl | exact absurd e (by assumption) | exact absurd e.symm (by assumption)

/-- Only `configure_output` changes a mode, and only to output (R31). -/
theorem Action.onLines_mode (cl : Level) (ls : Lines) (a : Action) (l : Line) :
    ((a.onLines cl ls).get l).mode = .output ∨ ((a.onLines cl ls).get l).mode = (ls.get l).mode := by
  cases a <;> simp only [Action.onLines, Lines.get_set, or_true] <;> split <;> simp_all

/-! ### One event -/

section
variable (s : State) (n : Note)
@[simp] theorem State.record_cfg : (s.record n).cfg = s.cfg := by cases n <;> rfl
@[simp] theorem State.record_line : (s.record n).line = s.line := by cases n <;> rfl
@[simp] theorem State.record_seq : (s.record n).seq = s.seq := by cases n <;> rfl
@[simp] theorem State.record_status : (s.record n).status = s.status := by cases n <;> rfl
@[simp] theorem State.record_ready : (s.record n).ready = s.ready := by cases n <;> rfl
@[simp] theorem State.record_trace : (s.record n).trace = s.trace := by cases n <;> rfl
@[simp] theorem State.record_inbox : (s.record n).inbox = s.inbox := by cases n <;> rfl
@[simp] theorem State.record_par : (s.record n).par = s.par := by cases n <;> rfl
end

section
variable (s : State) (m : Micro)
@[simp] theorem emit_cfg : (emit s m).cfg = s.cfg := by simp [emit]
@[simp] theorem emit_line : (emit s m).line = m.act.onLines s.par.configLevel s.line := by simp [emit]
@[simp] theorem emit_seq : (emit s m).seq = s.seq := by simp [emit]
@[simp] theorem emit_status : (emit s m).status = s.status := by simp [emit]
@[simp] theorem emit_ready : (emit s m).ready = s.ready := by simp [emit]
@[simp] theorem emit_trace : (emit s m).trace = s.trace ++ [m.act.event s.cfg.pin] := by simp [emit]
@[simp] theorem emit_inbox : (emit s m).inbox = s.inbox := by simp [emit]
@[simp] theorem emit_par : (emit s m).par = s.par := by simp [emit]
end

/-! ### A sequence of events -/

@[simp] theorem runMicros_nil (s : State) : runMicros [] s = s := rfl

@[simp] theorem runMicros_cons (m : Micro) (ms : List Micro) (s : State) :
    runMicros (m :: ms) s = runMicros ms (emit s m) := rfl

theorem runMicros_append (ms ns : List Micro) (s : State) : runMicros (ms ++ ns) s = runMicros ns (runMicros ms s) := by
  simp [runMicros, List.foldl_append]

section
variable (ms : List Micro) (s : State)
@[simp] theorem runMicros_cfg : (runMicros ms s).cfg = s.cfg := by induction ms generalizing s <;> simp [*]
@[simp] theorem runMicros_seq : (runMicros ms s).seq = s.seq := by induction ms generalizing s <;> simp [*]
@[simp] theorem runMicros_status : (runMicros ms s).status = s.status := by induction ms generalizing s <;> simp [*]
@[simp] theorem runMicros_ready : (runMicros ms s).ready = s.ready := by induction ms generalizing s <;> simp [*]
@[simp] theorem runMicros_inbox : (runMicros ms s).inbox = s.inbox := by induction ms generalizing s <;> simp [*]
@[simp] theorem runMicros_par : (runMicros ms s).par = s.par := by induction ms generalizing s <;> simp [*]

/-- The events appear in order at the end of the trace, under the configuration in force (R72). -/
theorem runMicros_trace : (runMicros ms s).trace = s.trace ++ ms.map fun m => m.act.event s.cfg.pin := by
  induction ms generalizing s <;> simp [*]

theorem runMicros_line :
    (runMicros ms s).line = ms.foldl (fun ls m => m.act.onLines s.par.configLevel ls) s.line := by
  induction ms generalizing s <;> simp [*]

/-- Outputs stay outputs. -/
theorem runMicros_allOutput (h : s.line.allOutput = true) : (runMicros ms s).line.allOutput = true := by
  induction ms generalizing s with
  | nil => exact h
  | cons m ms ih =>
    refine ih _ ?_
    rw [Lines.allOutput_iff] at h ⊢
    intro l
    rw [emit_line]
    exact (Action.onLines_mode ..).elim id fun e => e.trans (h l)
end

/-! ### The guards -/

theorem whenIdle_eq_next {s t : State} {k : Result} (h : whenIdle s k = .next t) : s.seq = .idle ∧ k = .next t := by
  unfold whenIdle at h
  split at h
  · exact ⟨by assumption, h⟩
  · cases h
  · cases h

theorem whenReady_eq_next {s t : State} {k : Result} (h : whenReady s k = .next t) : s.ready = true ∧ k = .next t := by
  unfold whenReady at h
  split at h
  · exact ⟨by assumption, h⟩
  · cases h

theorem whenConfigured_eq_next {s t : State} {k : Result} (h : whenConfigured s k = .next t) :
    s.line.allOutput = true ∧ k = .next t := by
  unfold whenConfigured at h
  split at h
  · exact ⟨by assumption, h⟩
  · cases h

@[simp] theorem whenIdle_idle {s : State} (h : s.seq = .idle) (k : Result) : whenIdle s k = k := by simp [whenIdle, h]
@[simp] theorem whenReady_ready {s : State} (h : s.ready = true) (k : Result) : whenReady s k = k := by simp [whenReady, h]
@[simp] theorem whenConfigured_configured {s : State} (h : s.line.allOutput = true) (k : Result) :
    whenConfigured s k = k := by simp [whenConfigured, h]

theorem whenIdle_busy {s : State} (h : s.seq ≠ .idle) (k : Result) : whenIdle s k = .refused .operationInProgress := by
  unfold whenIdle
  split
  · exact absurd (by assumption) h
  · rfl
  · rfl

/-- A delivered status leaves the block idle, and what runs next does not depend on it (R34). -/
@[simp] theorem whenIdle_deliver (s : State) (st : Status) (k : Result) : whenIdle (s.deliver st) k = k := rfl

theorem emit_deliver {s : State} (h : s.seq = .idle) (m : Micro) (st : Status) :
    emit (s.deliver st) m = (emit s m).deliver st := by
  obtain ⟨a, n⟩ := m
  cases n <;> simp [emit, State.push, State.record, State.logNibble, State.logByte, State.setLcd, State.deliver, h]

theorem runMicros_deliver {s : State} (h : s.seq = .idle) (ms : List Micro) (st : Status) :
    runMicros ms (s.deliver st) = (runMicros ms s).deliver st := by
  induction ms generalizing s with
  | nil => rfl
  | cons m ms ih => rw [runMicros_cons, runMicros_cons, emit_deliver h, ih (by simpa using h)]

/-! ### The two shapes of an instruction -/

/-- A transfer that answers emitted its events, from an idle block with all lines outputs. -/
theorem transfer_eq_next {s t : State} {ms : List Micro} (h : transfer s ms = .next t) :
    s.seq = .idle ∧ s.line.allOutput = true ∧ t = runMicros ms s := by
  obtain ⟨hi, h⟩ := whenIdle_eq_next h
  obtain ⟨hc, h⟩ := whenConfigured_eq_next h
  exact ⟨hi, hc, (Host.Outcome.next.inj h).symm⟩

theorem transfer_run {s : State} (hi : s.seq = .idle) (hc : s.line.allOutput = true) (ms : List Micro) :
    transfer s ms = .next (runMicros ms s) := by simp [transfer, hi, hc]

/-- A host operation that answers failed its check and only delivered InvalidParameter, or ran whole (R180). -/
theorem hostOperation_eq_next {s t : State} {ex : Option (List Micro)} {f : State → State}
    (h : hostOperation s ex f = .next t) :
    s.seq = .idle ∧ s.ready = true ∧ ((ex = none ∧ t = s.deliver .invalidParameter) ∨
      ∃ ms, ex = some ms ∧ s.line.allOutput = true ∧ t = (f (runMicros ms s)).deliver .success) := by
  obtain ⟨hi, h⟩ := whenIdle_eq_next h
  obtain ⟨hr, h⟩ := whenReady_eq_next h
  refine ⟨hi, hr, ?_⟩
  cases ex with
  | none => exact .inl ⟨rfl, (Host.Outcome.next.inj h).symm⟩
  | some ms =>
    obtain ⟨hc, h⟩ := whenConfigured_eq_next h
    exact .inr ⟨ms, rfl, hc, (Host.Outcome.next.inj h).symm⟩

theorem hostOperation_fail {s : State} (hi : s.seq = .idle) (hr : s.ready = true) (f : State → State) :
    hostOperation s none f = .next (s.deliver .invalidParameter) := by
  simp [hostOperation, hi, hr, invalidParameter]

theorem hostOperation_run {s : State} (hi : s.seq = .idle) (hr : s.ready = true) (hc : s.line.allOutput = true)
    (ms : List Micro) (f : State → State) :
    hostOperation s (some ms) f = .next ((f (runMicros ms s)).deliver .success) := by
  simp [hostOperation, hi, hr, hc]

/-- An `init` that answers failed for want of a configuration, or stored it and ran whole (R140). -/
theorem execInit_eq_next {s t : State} {config : Option DriverConfig} (h : execInit config s = .next t) :
    s.seq = .idle ∧ ((config = none ∧ t = s.deliver .invalidParameter) ∨
      ∃ c, config = some c ∧ PinConfig.distinct c.pin = true ∧
        t = (runMicros (initMicros s.par c) (s.storeConfig c)).setReady.deliver .success) := by
  obtain ⟨hi, h⟩ := whenIdle_eq_next h
  refine ⟨hi, ?_⟩
  cases config with
  | none => exact .inl ⟨rfl, (Host.Outcome.next.inj h).symm⟩
  | some c =>
    refine .inr ⟨c, rfl, ?_⟩
    dsimp only at h
    split at h
    · exact ⟨by assumption, (Host.Outcome.next.inj h).symm⟩
    · cases h

/-! ### Each sequence of events as a whole -/

/-- The four data latches after a nibble's bits were driven (R66). -/
def Lines.driveNibble (ls : Lines) (n : Nibble) : Lines :=
  { ls with
    d0 := ⟨ls.d0.mode, Level.toLine (levelOfBit (n.getLsbD 0))⟩
    d1 := ⟨ls.d1.mode, Level.toLine (levelOfBit (n.getLsbD 1))⟩
    d2 := ⟨ls.d2.mode, Level.toLine (levelOfBit (n.getLsbD 2))⟩
    d3 := ⟨ls.d3.mode, Level.toLine (levelOfBit (n.getLsbD 3))⟩ }

/-- E ends every pulse low (R160). -/
def Lines.enableLow (ls : Lines) : Lines := { ls with e := ⟨ls.e.mode, .low⟩ }

/-- `pulse_enable` (R160): five events, E ends low, nothing else but the note. -/
theorem run_pulseMicros (t : TimingConfig) (note : Note) (s : State) :
    runMicros (pulseMicros t note) s =
      ({ s with
          line := s.line.enableLow
          trace := s.trace ++ (pulseMicros t note).map fun m => m.act.event s.cfg.pin } : State).record note := by
  simp [pulseMicros, emit, Action.plain, State.record, State.push, Action.onLines, Lines.set, Lines.get, Lines.enableLow,
    Level.toLine, List.append_assoc]

/-- `write_nibble` (R161): nine events, the data lines at the nibble, E low, and the note. -/
theorem run_nibbleMicros (t : TimingConfig) (n : Nibble) (note : Note) (s : State) :
    runMicros (nibbleMicros t n note) s =
      ({ s with
          line := (s.line.driveNibble n).enableLow
          trace := s.trace ++ (nibbleMicros t n note).map fun m => m.act.event s.cfg.pin } : State).record note := by
  simp [nibbleMicros, run_pulseMicros, emit, Action.plain, State.record, State.push, Action.onLines,
    Lines.set, Lines.get, Lines.driveNibble, List.append_assoc]

/-- RS at the level of a byte's kind (R162). -/
def Lines.driveSelect (ls : Lines) (k : ByteKind) : Lines := { ls with rs := ⟨ls.rs.mode, Level.toLine k.rsLevel⟩ }

/-- The latches after a byte transfer (R162): RS at the byte's kind, E low, the data lines at the low nibble. -/
def Lines.afterByte (ls : Lines) (k : ByteKind) (v : Byte) : Lines :=
  ((ls.driveSelect k).driveNibble (loNibble v)).enableLow

/-- `write_byte` (R162): twenty events, two nibble-log entries, one byte-log entry, and what the observer makes of it. -/
theorem run_byteMicros (t : TimingConfig) (k : ByteKind) (v : Byte) (s : State) :
    runMicros (byteMicros t k v) s =
      { s with
        line := s.line.afterByte k v
        trace := s.trace ++ (byteMicros t k v).map fun m => m.act.event s.cfg.pin
        nibLog := s.nibLog ++ [⟨Level.toLine k.rsLevel, hiNibble v⟩, ⟨Level.toLine k.rsLevel, loNibble v⟩]
        byteLog := s.byteLog ++ [⟨k, v⟩]
        lcd := Lcd.byte s.par.blank s.cfg.time ⟨k, v⟩ s.lcd } := by
  simp [byteMicros, runMicros_append, run_nibbleMicros, emit, Action.plain, State.record, State.push, State.logNibble,
    State.logByte, State.setLcd, Action.onLines, Lines.set, Lines.get, Lines.driveNibble, Lines.enableLow,
    Lines.driveSelect, Lines.afterByte, List.append_assoc]

/-- `clear_sequence` (R181): the clear byte, then one more wait. -/
theorem run_clearMicros (par : Params) (t : TimingConfig) (s : State) :
    runMicros (clearMicros par t) s =
      (runMicros (byteMicros t .cmd par.cmdClear) s).push (.delayUs t.tClear) := by
  simp [clearMicros, runMicros_append, emit, Action.plain, State.record]

/-- The bytes of a list, one after another (R67). -/
theorem run_byteList (t : TimingConfig) (k : ByteKind) (bs : List Byte) (s : State) :
    (runMicros (bs.flatMap (byteMicros t k)) s).nibLog =
        s.nibLog ++ bs.flatMap (fun v => [⟨Level.toLine k.rsLevel, hiNibble v⟩, ⟨Level.toLine k.rsLevel, loNibble v⟩]) ∧
      (runMicros (bs.flatMap (byteMicros t k)) s).byteLog = s.byteLog ++ bs.map (⟨k, ·⟩) ∧
      (runMicros (bs.flatMap (byteMicros t k)) s).lcd =
        bs.foldl (fun l v => Lcd.byte s.par.blank s.cfg.time ⟨k, v⟩ l) s.lcd ∧
      (runMicros (bs.flatMap (byteMicros t k)) s).line = bs.foldl (fun ls v => ls.afterByte k v) s.line := by
  induction bs generalizing s with
  | nil => simp
  | cons b bs ih => simp [runMicros_append, run_byteMicros, ih]

/-- The latches after `init`'s six `configure_output` (R140). -/
def Lines.configured (cl : Level) : Lines :=
  ⟨⟨.output, Level.toLine cl⟩, ⟨.output, Level.toLine cl⟩, ⟨.output, Level.toLine cl⟩, ⟨.output, Level.toLine cl⟩,
    ⟨.output, Level.toLine cl⟩, ⟨.output, Level.toLine cl⟩⟩

theorem run_configureMicros (s : State) :
    runMicros configureMicros s =
      { s with
        line := Lines.configured s.par.configLevel
        trace := s.trace ++ configureMicros.map fun m => m.act.event s.cfg.pin } := by
  simp [configureMicros, emit, Action.plain, State.record, State.push, Action.onLines, Lines.set, Lines.configured,
    List.append_assoc]

/-- `resync` (R141): the nibbles 3, 3, 3, 2, RS not written; the observer is synchronised if RS is low (R82). -/
theorem run_resyncMicros (par : Params) (t : TimingConfig) (s : State) :
    runMicros (resyncMicros par t) s =
      { s with
        line := (s.line.driveNibble 0x2).enableLow
        trace := s.trace ++ (resyncMicros par t).map fun m => m.act.event s.cfg.pin
        nibLog := s.nibLog ++ [⟨s.line.rs.level, 0x3⟩, ⟨s.line.rs.level, 0x3⟩, ⟨s.line.rs.level, 0x3⟩,
          ⟨s.line.rs.level, 0x2⟩]
        lcd := Lcd.resync s.cfg.time s.line.rs.level s.lcd } := by
  cases h : par.tModeCommit <;>
    simp [resyncMicros, h, runMicros_append, run_nibbleMicros, emit, Action.plain, State.record, State.push,
      State.logNibble, State.setLcd, Action.onLines, Lines.driveNibble, Lines.enableLow, List.append_assoc]

theorem configured_allOutput (cl : Level) : (Lines.configured cl).allOutput = true := rfl

/-- The lines are outputs after a successful `init` (R23). -/
theorem run_initMicros_allOutput (par : Params) (c : DriverConfig) (s : State) :
    (runMicros (initMicros par c) s).line.allOutput = true := by
  simp only [initMicros, runMicros_append]
  iterate 5 refine runMicros_allOutput _ _ ?_
  rw [run_configureMicros]
  exact configured_allOutput _

end Sys2Proof.Machine
end

