-- ==== Sys2Proof/Laws/Frames.lean ====
section
/-! SUPPORT. The machine's event sequences are the frames the spec writes out. -/

namespace Sys2Proof.Machine

@[simp] theorem hiNibble_eq_highHalf (v : Byte) : hiNibble v = highHalf v := by
  ext i hi
  simp only [hiNibble, highHalf, BitVec.getElem_setWidth, BitVec.getLsbD_ushiftRight, BitVec.getElem_extractLsb']

@[simp] theorem loNibble_eq_lowHalf (v : Byte) : loNibble v = lowHalf v := by
  ext i hi
  simp [loNibble, lowHalf, BitVec.getElem_setWidth, BitVec.getElem_extractLsb']

theorem levelOfBit_eq_bitLevel (n : Nibble) (k : Nat) : levelOfBit (n.getLsbD k) = bitLevel n k := rfl

@[simp] theorem rsLevel_eq_selectLevel (k : ByteKind) : k.rsLevel = selectLevel k := by cases k <;> rfl

theorem pulseMicros_events (c : DriverConfig) (note : Note) :
    ((pulseMicros c.time note).map fun m => m.act.event c.pin) = pulseEvents c := rfl

theorem nibbleMicros_events (c : DriverConfig) (n : Nibble) (note : Note) :
    ((nibbleMicros c.time n note).map fun m => m.act.event c.pin) = nibbleEvents c n := rfl

theorem byteMicros_events (c : DriverConfig) (k : ByteKind) (v : Byte) :
    ((byteMicros c.time k v).map fun m => m.act.event c.pin) = byteEvents c k v := by
  simp only [byteMicros, List.map_append, nibbleMicros_events, hiNibble_eq_highHalf, loNibble_eq_lowHalf]
  cases k <;> rfl

theorem configureMicros_events (c : DriverConfig) :
    ((configureMicros ++ [(Action.delayMs c.time.tPoweron).plain]).map fun m => m.act.event c.pin) = powerOnEvents c := rfl

theorem resyncMicros_events (par : Params) (c : DriverConfig) :
    ((resyncMicros par c.time).map fun m => m.act.event c.pin) = resyncEvents par c := by
  simp only [resyncMicros, List.map_append, nibbleMicros_events, resyncEvents]
  cases par.tModeCommit <;> rfl

theorem Lines.afterByte_eq (ls : Lines) (h : ls.allOutput = true) (k : ByteKind) (v : Byte) :
    ls.afterByte k v = linesAfter k v := by
  rw [Lines.allOutput_iff] at h
  have h0 := h .rs; have h1 := h .e; have h2 := h .d0; have h3 := h .d1; have h4 := h .d2; have h5 := h .d3
  simp only [Lines.get] at h0 h1 h2 h3 h4 h5
  simp only [Lines.afterByte, Lines.driveSelect, Lines.driveNibble, Lines.enableLow, linesAfter, levelOfBit_eq_bitLevel,
    loNibble_eq_lowHalf, rsLevel_eq_selectLevel, *]

theorem linesAfter_allOutput (k : ByteKind) (v : Byte) : (linesAfter k v).allOutput = true := by
  simp [linesAfter, Lines.allOutput]

/-- A byte transfer in the spec's own terms (R162). -/
theorem run_byte (k : ByteKind) (v : Byte) (s : State) :
    runMicros (byteMicros s.cfg.time k v) s =
      { s with
        line := s.line.afterByte k v
        trace := s.trace ++ byteEvents s.cfg k v
        nibLog := s.nibLog ++ byteNibbles k v
        byteLog := s.byteLog ++ [⟨k, v⟩]
        lcd := Lcd.byte s.par.blank s.cfg.time ⟨k, v⟩ s.lcd } := by
  simp only [run_byteMicros, byteMicros_events, hiNibble_eq_highHalf, loNibble_eq_lowHalf, rsLevel_eq_selectLevel, byteNibbles]

/-- The micros of a list of bytes, each of its own kind. -/
def bytesMicros (t : TimingConfig) (es : List ByteEntry) : List Micro := es.flatMap fun e => byteMicros t e.kind e.value

/-- Any number of byte transfers from a configured block (R67, R162). -/
theorem run_bytes (es : List ByteEntry) (s : State) (h : s.line.allOutput = true) :
    sendsBytes s (runMicros (bytesMicros s.cfg.time es) s) es [] ∧ keepsControl s (runMicros (bytesMicros s.cfg.time es) s) ∧
      (runMicros (bytesMicros s.cfg.time es) s).status = s.status := by
  induction es generalizing s with
  | nil => simp [bytesMicros, sendsBytes, sends, keepsControl, observeBytes]
  | cons e es ih =>
    have hr := run_byte e.kind e.value s
    have hs : runMicros (bytesMicros s.cfg.time (e :: es)) s =
        runMicros (bytesMicros s.cfg.time es) (runMicros (byteMicros s.cfg.time e.kind e.value) s) := by
      simp [bytesMicros, runMicros_append]
    have ho := runMicros_allOutput (byteMicros s.cfg.time e.kind e.value) s h
    have := ih _ ho
    rw [runMicros_cfg, ← hs] at this
    obtain ⟨⟨⟨h1, h2, h3⟩, h4, h5⟩, ⟨k1, k2, k3, k4, k5⟩, hst⟩ := this
    refine ⟨⟨⟨?_, ?_, ?_⟩, ?_, ?_⟩, ⟨?_, ?_, ?_, ?_, ?_⟩, ?_⟩
    · simpa [hr] using h1
    · simpa [hr] using h2
    · simpa [hr] using h3
    · rw [h4, hr]
      cases es with
      | nil => simp [Lines.afterByte_eq _ h]
      | cons e' es => simp [List.getLast?_cons]
    · simpa [hr, observeBytes] using h5
    all_goals simp

end Sys2Proof.Machine
end

