-- ==== Sys2Proof/Laws/Exec.lean ====
section
/-! SUPPORT. What `exec` and `step` can do, said once over all instructions. -/

namespace Sys2Proof.Machine

/-- The events of an internal transfer on its own; `none` for host operations and status results. -/
def transferMicros (par : Params) (t : TimingConfig) (i : Instr) : Option (List Micro) :=
  match i with
  | .pulseEnable => some (pulseMicros t .strayPulse)
  | .writeNibble v => some (nibbleMicros t (loNibble v) (.strayNibble (loNibble v)))
  | .writeByte r v => some (byteMicros t (if r then .data else .cmd) v)
  | .cmdClear => some (byteMicros t .cmd par.cmdClear)
  | .cmdHome => some (byteMicros t .cmd par.cmdHome)
  | .cmdFunctionSet n f => some (byteMicros t .cmd (functionSet par n f))
  | .cmdDisplayControl d c b => some (byteMicros t .cmd (displayControl par d c b))
  | .cmdSetCgram s => some (byteMicros t .cmd (setCgram par s.toNat))
  | .cmdSetDdram a => some (byteMicros t .cmd (setDdram par a))
  | .data v => some (byteMicros t .data v)
  | .resync8Bit => some (nibbleMicros t 0x3 (.strayNibble 0x3))
  | .resyncCommit4Bit => some (nibbleMicros t 0x2 (.strayNibble 0x2))
  | .init _ | .clear | .home | .setCursor _ _ | .writeChar _ | .writeString _ | .createGlyph _ _ | .setDisplay _
  | .statusSuccess | .statusInvalidParameter | .statusBusy => none

/-- An instruction that is a transfer runs as one. -/
theorem exec_transfer {i : Instr} {s : State} {ms : List Micro} (h : transferMicros s.par s.cfg.time i = some ms) :
    exec i s = transfer s ms := by
  cases i <;> cases h <;> rfl

/-- A host operation other than `init` is its expansion, checked and run (R180). -/
theorem exec_hostOperation {i : Instr} {s : State} (h : isHostOperation i = true) (hi : ∀ c, i ≠ .init c) :
    exec i s = hostOperation s (expansion s.par s.cfg.time i) (storeAtEnd i) := by
  cases i <;> first | (exact absurd rfl (hi _)) | (cases h; done) | rfl

/-- A host operation has no expansion exactly if its parameters are out of range or absent (R221). -/
theorem expansion_eq_none_iff {op : Instr} (h : isHostOperation op = true) (par : Params) (t : TimingConfig) :
    expansion par t op = none ↔ violatesParameters op = true := by
  cases op with
  | init c => cases c <;> simp [violatesParameters, expansion]
  | setCursor r c =>
    simp [violatesParameters, expansion, setCursorMicros, ddramAddr, Config.nRows, Config.nCols]
    omega
  | createGlyph slot p =>
    by_cases hs : slot ≥ 8
    · simp [violatesParameters, expansion, createGlyphMicros, hs, Nat.lt_of_succ_le hs]
    · have h7 : ¬ 7 < slot := by omega
      cases p <;> simp [violatesParameters, expansion, createGlyphMicros, hs, h7]
  | setDisplay f => cases f <;> simp [violatesParameters, expansion, setDisplayMicros]
  | writeString s => cases s <;> simp [violatesParameters, expansion, writeStringMicros]
  | _ => first | (cases h; done) | simp [violatesParameters, expansion]

/-- What an operation stores at its end touches neither the bus nor the logs (R140, R185). -/
theorem storeAtEnd_eq (op : Instr) (s : State) :
    (storeAtEnd op s).line = s.line ∧ (storeAtEnd op s).trace = s.trace ∧ (storeAtEnd op s).nibLog = s.nibLog ∧
      (storeAtEnd op s).byteLog = s.byteLog ∧ (storeAtEnd op s).lcd = s.lcd ∧ (storeAtEnd op s).inbox = s.inbox ∧
      (storeAtEnd op s).par = s.par ∧ (storeAtEnd op s).cfg.pin = s.cfg.pin ∧ (storeAtEnd op s).cfg.time = s.cfg.time ∧
      (s.ready = true → (storeAtEnd op s).ready = true) := by
  cases op with
  | setDisplay f => cases f <;> simp [storeAtEnd, storeFlags]
  | _ => simp [storeAtEnd]

/-- Finishing an operation touches neither the bus nor the logs. -/
theorem finish_eq (op : Instr) (s : State) :
    (finish op s).line = s.line ∧ (finish op s).trace = s.trace ∧ (finish op s).nibLog = s.nibLog ∧
      (finish op s).byteLog = s.byteLog ∧ (finish op s).lcd = s.lcd ∧ (finish op s).inbox = s.inbox ∧
      (finish op s).par = s.par ∧ (finish op s).cfg.pin = s.cfg.pin ∧ (finish op s).cfg.time = s.cfg.time := by
  obtain ⟨h1, h2, h3, h4, h5, h6, h7, h8, h9, _⟩ := storeAtEnd_eq op s
  simp [finish, *]

/-- Everything a tick can do: nothing, fail, finish, or emit one event and move on or finish (R33). -/
theorem tick_cases (s : State) :
    tick s = s ∨ tick s = s.deliver .invalidParameter ∨ (∃ op, tick s = finish op s) ∨
      ∃ op m, (∃ k ms, s.seq = .running op k ∧ expansion s.par s.cfg.time op = some ms ∧ ms[k]? = some m) ∧
        ((∃ k, tick s = (emit s m).setSeq (.running op k)) ∨ tick s = finish op (emit s m)) := by
  unfold tick
  split
  · exact .inl rfl
  · exact .inl rfl
  · split
    · exact .inr (.inl rfl)
    · split
      · exact .inr (.inr (.inl ⟨_, rfl⟩))
      · refine .inr (.inr (.inr ⟨_, _, ⟨_, _, by assumption, by assumption, by assumption⟩, ?_⟩))
        unfold arriveAt
        split
        · exact .inl ⟨_, rfl⟩
        · exact .inr rfl

/-- The bytes a host operation other than `init` sends when its parameters are in range (R68). -/
def opBytes (par : Params) (op : Instr) : List ByteEntry :=
  match op with
  | .clear => [⟨.cmd, par.cmdClear⟩]
  | .home => [⟨.cmd, par.cmdHome⟩]
  | .setCursor row column => ((ddramAddr row column).map fun a => (⟨.cmd, setDdram par a⟩ : ByteEntry)).toList
  | .writeChar c => [⟨.data, operandByte c⟩]
  | .writeString (some s) => (stringElements par.stringEnd s).map fun b => ⟨.data, operandByte b⟩
  | .createGlyph slot (some p) => glyphBytes par slot p
  | .setDisplay (some f) => [⟨.cmd, displayControl par f.displayOn f.cursor f.blink⟩]
  | _ => []

/-- The waits after its last byte (R181, R182). -/
def opTail (par : Params) (t : TimingConfig) (op : Instr) : List Micro :=
  match op with
  | .clear => [(Action.delayUs t.tClear).plain]
  | .home => if par.homeExtraDelay then [(Action.delayUs t.tCmd).plain] else []
  | _ => []

/-- The expansion of a host operation other than `init` is its bytes and its last waits. -/
theorem expansion_eq {op : Instr} {par : Params} {t : TimingConfig} {ms : List Micro} (h : expansion par t op = some ms)
    (hn : ∀ c, op ≠ .init c) : ms = bytesMicros t (opBytes par op) ++ opTail par t op := by
  cases op with
  | init c => exact absurd rfl (hn _)
  | clear => cases h; simp [clearMicros, opBytes, opTail, bytesMicros]
  | home => cases h; simp [homeMicros, opBytes, opTail, bytesMicros]
  | setCursor r c =>
    simp only [expansion, setCursorMicros, Option.map_eq_some_iff] at h
    obtain ⟨a, ha, rfl⟩ := h
    simp [opBytes, ha, opTail, bytesMicros]
  | writeChar c => cases h; simp [writeCharMicros, opBytes, opTail, bytesMicros]
  | writeString s =>
    cases s with
    | none => cases h
    | some s =>
      cases h
      simp [opBytes, opTail, bytesMicros, List.flatMap_map]
      rfl
  | createGlyph a p =>
    simp only [expansion, createGlyphMicros] at h
    split at h
    · cases h
    · cases p with
      | none => cases h
      | some p => cases h; simp [opBytes, opTail, bytesMicros, glyphBytes, Pattern.toList]
  | setDisplay f =>
    cases f with
    | none => cases h
    | some f => cases h; simp [opBytes, opTail, bytesMicros]
  | _ => cases h

/-- The last waits only lengthen the trace, by delays in microseconds. -/
theorem run_opTail (par : Params) (t : TimingConfig) (op : Instr) (s : State) :
    ∃ events, runMicros (opTail par t op) s = { s with trace := s.trace ++ events } ∧
      ∀ e ∈ events, ∃ n, e = .delayUs n := by
  cases op with
  | clear => exact ⟨_, rfl, by simp [Action.plain, Action.event]⟩
  | home =>
    simp only [opTail]
    split
    · exact ⟨_, rfl, by simp [Action.plain, Action.event]⟩
    · exact ⟨[], by simp, by simp⟩
  | _ => exact ⟨[], by simp [opTail], by simp⟩

/-- Everything an instruction that answers can have done. -/
inductive Answers (i : Instr) (s t : State) : Prop where
  /-- A transfer emitted its events. -/
  | transfer (ms : List Micro) (h : transferMicros s.par s.cfg.time i = some ms) (hc : s.line.allOutput = true)
      (ht : t = runMicros ms s)
  /-- A status was delivered, by a status result or a failed check. -/
  | status (st : Status) (hst : st ≠ .busy)
      (h : i = .statusSuccess ∧ st = .success ∨ i = .statusInvalidParameter ∧ st = .invalidParameter ∨
        isHostOperation i = true ∧ expansion s.par s.cfg.time i = none ∧ st = .invalidParameter)
      (ht : t = s.deliver st)
  /-- `init` ran. -/
  | init (c : DriverConfig) (h : i = .init (some c)) (hd : PinConfig.distinct c.pin = true)
      (ht : t = (runMicros (initMicros s.par c) (s.storeConfig c)).setReady.deliver .success)
  /-- Another host operation ran. -/
  | host (ms : List Micro) (hh : isHostOperation i = true) (hi : ∀ c, i ≠ .init c) (hr : s.ready = true)
      (hc : s.line.allOutput = true) (hm : expansion s.par s.cfg.time i = some ms)
      (ht : t = finish i (runMicros ms s))

theorem exec_eq_next {i : Instr} {s t : State} (h : exec i s = .next t) : s.seq = .idle ∧ Answers i s t := by
  by_cases hi : ∃ c, i = .init c
  · obtain ⟨c, rfl⟩ := hi
    obtain ⟨hq, ⟨rfl, ht⟩ | ⟨c', rfl, hd, ht⟩⟩ := execInit_eq_next h
    · exact ⟨hq, .status _ (by decide) (.inr (.inr ⟨rfl, rfl, rfl⟩)) ht⟩
    · exact ⟨hq, .init _ rfl hd ht⟩
  · have hi' : ∀ c, i ≠ .init c := fun c e => hi ⟨c, e⟩
    by_cases hh : isHostOperation i = true
    · rw [exec_hostOperation hh hi'] at h
      obtain ⟨hq, hr, ⟨he, ht⟩ | ⟨ms, he, hc, ht⟩⟩ := hostOperation_eq_next h
      · exact ⟨hq, .status _ (by decide) (.inr (.inr ⟨hh, he, rfl⟩)) ht⟩
      · exact ⟨hq, .host _ hh hi' hr hc he ht⟩
    · cases hm : transferMicros s.par s.cfg.time i with
      | some ms =>
        rw [exec_transfer hm] at h
        obtain ⟨hq, hc, ht⟩ := transfer_eq_next h
        exact ⟨hq, .transfer _ hm hc ht⟩
      | none =>
        cases i <;> first | (cases hm; done) | (exact absurd rfl hh) | skip
        · obtain ⟨hq, h⟩ := whenIdle_eq_next h
          exact ⟨hq, .status _ (by decide) (.inl ⟨rfl, rfl⟩) (Host.Outcome.next.inj h).symm⟩
        · obtain ⟨hq, h⟩ := whenIdle_eq_next h
          exact ⟨hq, .status _ (by decide) (.inr (.inl ⟨rfl, rfl⟩)) (Host.Outcome.next.inj h).symm⟩
        · cases h

/-- What a host operation that answers did: it failed, `init` ran, or its bytes and its last waits went out (R180). -/
theorem exec_host_next {op : Instr} {s t : State} (hh : isHostOperation op = true) (h : exec op s = .next t) :
    t = s.deliver .invalidParameter ∨
    (∃ c, op = .init (some c) ∧ PinConfig.distinct c.pin = true ∧
      t = (runMicros (initMicros s.par c) (s.storeConfig c)).setReady.deliver .success) ∨
    ((∀ c, op ≠ .init c) ∧ s.ready = true ∧ s.line.allOutput = true ∧
      t = finish op (runMicros (bytesMicros s.cfg.time (opBytes s.par op) ++ opTail s.par s.cfg.time op) s) ∧
      expansion s.par s.cfg.time op =
        some (bytesMicros s.cfg.time (opBytes s.par op) ++ opTail s.par s.cfg.time op)) := by
  obtain ⟨_, h⟩ := exec_eq_next h
  cases h with
  | transfer ms h _ _ => cases op <;> cases hh <;> cases h
  | status st _ h ht =>
    obtain ⟨rfl, _⟩ | ⟨rfl, _⟩ | ⟨_, _, rfl⟩ := h
    · cases hh
    · cases hh
    · exact .inl ht
  | init c h hd ht => exact .inr (.inl ⟨c, h, hd, ht⟩)
  | host ms _ hn hr hc hm ht =>
    refine .inr (.inr ⟨hn, hr, hc, ?_, ?_⟩)
    · rw [ht, expansion_eq hm hn]
    · rw [hm, expansion_eq hm hn]

/-- The run of a host operation other than `init`, in the spec's terms (R72, R76, R77). -/
theorem run_opBytes (op : Instr) (s : State) (hc : s.line.allOutput = true) :
    ∃ events, (∀ e ∈ events, ∃ n, e = Event.delayUs n) ∧
      sendsBytes s (finish op (runMicros (bytesMicros s.cfg.time (opBytes s.par op) ++ opTail s.par s.cfg.time op) s))
        (opBytes s.par op) events := by
  generalize hu : runMicros (bytesMicros s.cfg.time (opBytes s.par op) ++ opTail s.par s.cfg.time op) s = u
  obtain ⟨h1, h2, h3, h4, h5, _⟩ := finish_eq op u
  obtain ⟨events, he, hd⟩ :=
    run_opTail s.par s.cfg.time op (runMicros (bytesMicros s.cfg.time (opBytes s.par op)) s)
  rw [runMicros_append, he] at hu
  obtain ⟨⟨⟨g1, g2, g3⟩, g4, g5⟩, _⟩ := run_bytes (opBytes s.par op) s hc
  refine ⟨events, hd, ⟨?_, ?_, ?_⟩, ?_, ?_⟩
  · rw [h2, ← hu]; simp [g1]
  · rw [h3, ← hu]; exact g2
  · rw [h4, ← hu]; exact g3
  · rw [h1, ← hu]; exact g4
  · rw [h5, ← hu]; exact g5

/-- The run of `init`, up to READY and the status, in the spec's terms (R142). -/
theorem run_initMicros (s : State) (c : DriverConfig) :
    ∃ t, runMicros (initMicros s.par c) (s.storeConfig c) = t ∧
      sends s t (powerOnEvents c ++ resyncEvents s.par c ++
          (initBytes s.par c).flatMap (fun e => byteEvents c e.kind e.value) ++ [.delayUs c.time.tClear])
        ([⟨Level.toLine s.par.configLevel, 0x3⟩, ⟨Level.toLine s.par.configLevel, 0x3⟩,
          ⟨Level.toLine s.par.configLevel, 0x3⟩, ⟨Level.toLine s.par.configLevel, 0x2⟩] ++
          (initBytes s.par c).flatMap fun e => byteNibbles e.kind e.value)
        (initBytes s.par c) ∧
      t.line = linesAfter .cmd s.par.cmdClear ∧ t.cfg = c ∧ t.seq = s.seq ∧ t.status = s.status ∧
      t.inbox = s.inbox ∧ t.par = s.par ∧
      t.lcd = (initBytes s.par c).foldl (fun l e => Lcd.byte s.par.blank c.time e l)
        (Lcd.resync c.time (Level.toLine s.par.configLevel) s.lcd) := by
  have hms : initMicros s.par c =
      (configureMicros ++ ([(Action.delayMs c.time.tPoweron).plain] ++ resyncMicros s.par c.time)) ++
        (bytesMicros c.time (initBytes s.par c) ++ [(Action.delayUs c.time.tClear).plain]) := by
    simp [initMicros, initBytes, bytesMicros, clearMicros]
  have hpo : configureMicros.map (fun m => m.act.event c.pin) ++ [.delayMs c.time.tPoweron] = powerOnEvents c := by
    have := configureMicros_events c
    rw [List.map_append] at this
    exact this
  refine ⟨_, rfl, ?_⟩
  rw [hms, runMicros_append]
  generalize hu : runMicros (configureMicros ++ _) _ = u
  rw [runMicros_append, run_configureMicros, runMicros_append, runMicros_cons, runMicros_nil, run_resyncMicros] at hu
  rw [runMicros_append, runMicros_cons, runMicros_nil]
  have hc : u.cfg = c := by rw [← hu]; rfl
  have hp : u.par = s.par := by rw [← hu]; rfl
  have hst : u.status = s.status := by rw [← hu]; rfl
  have hl : u.line.allOutput = true := by rw [← hu]; rfl
  obtain ⟨⟨⟨h1, h2, h3⟩, h4, h5⟩, ⟨k1, k2, k3, k4, k5⟩, h6⟩ := run_bytes (initBytes s.par c) u hl
  rw [hc] at h1 h2 h3 h4 h5 k1 k2 k3 k4 k5 h6
  have htr : u.trace = s.trace ++ powerOnEvents c ++ resyncEvents s.par c := by
    rw [← hu, ← hpo, ← resyncMicros_events]
    simp [Action.plain, Action.event]
  have hnl : u.nibLog = s.nibLog ++ [⟨Level.toLine s.par.configLevel, 0x3⟩, ⟨Level.toLine s.par.configLevel, 0x3⟩,
      ⟨Level.toLine s.par.configLevel, 0x3⟩, ⟨Level.toLine s.par.configLevel, 0x2⟩] := by rw [← hu]; rfl
  have hbl : u.byteLog = s.byteLog := by rw [← hu]; rfl
  have hlc : u.lcd = Lcd.resync c.time (Level.toLine s.par.configLevel) s.lcd := by rw [← hu]; rfl
  have hq : u.seq = s.seq := by rw [← hu]; rfl
  have hin : u.inbox = s.inbox := by rw [← hu]; rfl
  generalize runMicros (bytesMicros c.time (initBytes s.par c)) u = t at *
  refine ⟨⟨?_, ?_, ?_⟩, ?_, k1, k2.trans hq, h6.trans hst, k4.trans hin, k5.trans hp, ?_⟩
  · show t.trace ++ [_] = _
    rw [h1, htr]
    simp [List.append_assoc, Action.plain, Action.event]
  · show t.nibLog = _
    rw [h2, hnl, List.append_assoc]
  · show t.byteLog = _
    rw [h3, hbl]
  · exact h4
  · show t.lcd = _
    rw [h5, observeBytes, hc, hp, hlc]

/-- Everything a step can do: tick, carry out an internal word, idle on, or run the operation presented first. -/
theorem step_eq_next {s t : State} (h : step s = .next t) :
    (∃ op k, s.seq = .running op k ∧ t = tick s) ∨
      (∃ w i, s.seq = .internal w ∧ decode s.par w = .ok i ∧ exec i (s.setSeq .idle) = .next t) ∨
      (s.seq = .idle ∧ s.inbox = [] ∧ t = s) ∨
      (s.seq = .idle ∧ ∃ w ws i, s.inbox = w :: ws ∧ decodeHost s.par w = .ok i ∧ exec i (s.setInbox ws) = .next t) := by
  unfold step at h
  split at h
  · exact .inl ⟨_, _, by assumption, (Host.Outcome.next.inj h).symm⟩
  · unfold runInternal at h
    split at h
    · exact .inr (.inl ⟨_, _, by assumption, by assumption, h⟩)
    · cases h
  · split at h
    · exact .inr (.inr (.inl ⟨by assumption, by assumption, (Host.Outcome.next.inj h).symm⟩))
    · unfold runRequest at h
      split at h
      · exact .inr (.inr (.inr ⟨by assumption, _, _, _, by assumption, by assumption, h⟩))
      · cases h

/-- Every request that decodes is one of the eight operations (R101, R164). -/
theorem decodeHost_isHostOperation {par : Params} {w : List Bool} {i : Instr} (h : decodeHost par w = .ok i) :
    isHostOperation i = true := by
  unfold decodeHost at h
  split at h
  all_goals
    try simp only [bind, Except.bind, pure, Except.pure] at h
    repeat' split at h
    all_goals first | (cases h; done) | (cases h; rfl)

end Sys2Proof.Machine
end

