-- ==== Sys2Proof/Laws/Memory.lean ====
section
/-! SUPPORT. The attached controller's memory: a read after a write, and the canonical form. -/

namespace Sys2Proof.Machine

@[simp] theorem Memory.read_write_same (m : Memory) (a : Nat) (v : Byte) : Memory.read (Memory.write m a v) a = some v := by
  induction m with
  | nil => simp [Memory.write, Memory.read]
  | cons c m ih =>
    simp only [Memory.write]
    split
    · simp [Memory.read]
    · split
      · simp [Memory.read]
      · have h : ¬ c.1 = a := by omega
        simp [Memory.read, h, ih]

theorem Memory.read_write_other (m : Memory) {a b : Nat} (v : Byte) (h : b ≠ a) :
    Memory.read (Memory.write m a v) b = Memory.read m b := by
  have h' : a ≠ b := h.symm
  induction m with
  | nil => simp [Memory.write, Memory.read, h']
  | cons c m ih =>
    simp only [Memory.write]
    split
    · simp [Memory.read, h']
    · split
      · rename_i hc; simp [Memory.read, h', ← hc]
      · simp [Memory.read, ih]

/-- A cell of the memory after a write is the written one or was there before. -/
theorem Memory.mem_write {m : Memory} {a : Nat} {v : Byte} {c : Host.Cell} (h : c ∈ Memory.write m a v) :
    c = (a, v) ∨ c ∈ m := by
  induction m with
  | nil => simpa [Memory.write] using h
  | cons d m ih =>
    simp only [Memory.write] at h
    split at h
    · simpa using h
    · split at h
      · rcases List.mem_cons.1 h with h | h
        · exact .inl h
        · exact .inr (List.mem_cons_of_mem _ h)
      · rcases List.mem_cons.1 h with h | h
        · exact .inr (h ▸ List.mem_cons_self ..)
        · exact (ih h).imp_right (List.mem_cons_of_mem _)

theorem Memory.write_wf {m : Memory} (hm : Memory.wf m) (a : Nat) (v : Byte) : Memory.wf (Memory.write m a v) := by
  induction m with
  | nil => exact List.pairwise_singleton _ _
  | cons c m ih =>
    obtain ⟨hc, hm'⟩ := List.pairwise_cons.1 hm
    simp only [Memory.write]
    split
    · rename_i h
      refine List.pairwise_cons.2 ⟨fun x hx => ?_, hm⟩
      rcases List.mem_cons.1 hx with rfl | hx
      · exact h
      · exact h.trans (hc x hx)
    · split
      · rename_i h
        exact List.pairwise_cons.2 ⟨fun x hx => h ▸ hc x hx, hm'⟩
      · refine List.pairwise_cons.2 ⟨fun x hx => ?_, ih hm'⟩
        rcases Memory.mem_write hx with rfl | hx
        · show c.1 < a
          omega
        · exact hc x hx

theorem clearedDdram_wf (blank : Byte) : Memory.wf (clearedDdram blank) := by
  simp [clearedDdram, List.range_succ, Memory.wf]

theorem clearedDdram_onScreen (blank : Byte) : ∀ c ∈ clearedDdram blank, onScreen c.1 = true := by
  simp [clearedDdram, List.range_succ, onScreen]

/-- A cleared screen shows the blank at every on-screen address and nothing elsewhere. -/
theorem read_clearedDdram (blank : Byte) (a : Nat) :
    Memory.read (clearedDdram blank) a = if onScreen a then some blank else none := by
  by_cases h : a < 80
  · interval_cases a <;> rfl
  · have ho : onScreen a = false := by simp [onScreen]; omega
    have hr : ∀ k, k < 80 → (k = a) = False := fun k hk => by simp; omega
    simp [clearedDdram, List.range_succ, Memory.read, ho, hr]

end Sys2Proof.Machine
end

