-- ==== Sys2Proof/Laws/PerInstr.lean ====
section
/-! SUPPORT. Per-instruction laws: the word of every instruction carries the fixed bits of its own row of
spec/opcode_table.json, in that row's format. -/

namespace Sys2Proof.Laws.TableRow

/-- A row of the opcode table: its format and its encoding, bit 0 first; `none` stands for an operand bit. -/
structure Row where
  format : Format
  bits : List (Option Bool)

/-- The row of an instruction, copied from the table's `encoding` column. -/
def row (i : Instr) : Row :=
  match i with
  | .init _ => ⟨.host, [some false, some false, some false]⟩
  | .clear => ⟨.host, [some true, some false, some false]⟩
  | .home => ⟨.host, [some false, some true, some false]⟩
  | .setCursor _ _ => ⟨.host, [some true, some true, some false]⟩
  | .writeChar _ => ⟨.host, [some false, some false, some true]⟩
  | .writeString _ => ⟨.host, [some true, some false, some true]⟩
  | .createGlyph _ _ => ⟨.host, [some false, some true, some true]⟩
  | .setDisplay _ => ⟨.host, [some true, some true, some true]⟩
  | .pulseEnable => ⟨.ewave, [some false, some true, some false]⟩
  | .writeNibble _ => ⟨.frame4, [none, none, none, none]⟩
  | .writeByte _ _ => ⟨.frame9, [none, none, none, none, none, none, none, none, none]⟩
  | .cmdClear => ⟨.cmd9, [some true, some false, some false, some false, some false, some false, some false, some false, some false]⟩
  | .cmdHome => ⟨.cmd9, [some false, some true, some false, some false, some false, some false, some false, some false, some false]⟩
  | .cmdFunctionSet _ _ => ⟨.cmd9, [some false, some false, none, none, some false, some true, some false, some false, some false]⟩
  | .cmdDisplayControl _ _ _ => ⟨.cmd9, [none, none, none, some true, some false, some false, some false, some false, some false]⟩
  | .cmdSetCgram _ => ⟨.cmd9, [some false, some false, some false, none, none, none, some true, some false, some false]⟩
  | .cmdSetDdram _ => ⟨.cmd9, [none, none, none, none, none, none, none, some true, some false]⟩
  | .data _ => ⟨.cmd9, [none, none, none, none, none, none, none, none, some true]⟩
  | .resync8Bit => ⟨.resync4, [some true, some true, some false, some false]⟩
  | .resyncCommit4Bit => ⟨.resync4, [some false, some true, some false, some false]⟩
  | .statusSuccess => ⟨.status, [some false, some false]⟩
  | .statusInvalidParameter => ⟨.status, [some true, some false]⟩
  | .statusBusy => ⟨.status, [some false, some true]⟩

/-- The leading bits agree with the fixed bits of a pattern. -/
def agrees : List (Option Bool) → List Bool → Bool
  | [], _ => true
  | none :: ps, _ :: bs => agrees ps bs
  | some p :: ps, b :: bs => (p == b) && agrees ps bs
  | _ :: _, [] => false

/-- The instruction's word has its row's format and fixed bits, whatever its operands and the open parameters. -/
def Statement (i : Instr) : Prop :=
  ∀ par : Params, (encode par i).format = (row i).format ∧ agrees (row i).bits (encode par i).bits = true

theorem init (config : Option DriverConfig) : Statement (.init config) := fun _ => ⟨rfl, rfl⟩

theorem clear : Statement (.clear) := fun _ => ⟨rfl, rfl⟩

theorem home : Statement (.home) := fun _ => ⟨rfl, rfl⟩

theorem setCursor (row column : Nat) : Statement (.setCursor row column) := fun _ => ⟨rfl, rfl⟩

theorem writeChar (c : Nat) : Statement (.writeChar c) := fun _ => ⟨rfl, rfl⟩

theorem writeString (s : Option (List Nat)) : Statement (.writeString s) := fun _ => ⟨rfl, rfl⟩

theorem createGlyph (slot : Nat) (pattern : Option Pattern) : Statement (.createGlyph slot pattern) := fun _ => ⟨rfl, rfl⟩

theorem setDisplay (flags : Option DisplayConfig) : Statement (.setDisplay flags) := fun _ => ⟨rfl, rfl⟩

theorem pulseEnable : Statement (.pulseEnable) := fun _ => ⟨rfl, rfl⟩

theorem writeNibble (value : Byte) : Statement (.writeNibble value) := fun _ => ⟨rfl, rfl⟩

theorem writeByte (r : Bool) (value : Byte) : Statement (.writeByte r value) := fun _ => ⟨rfl, rfl⟩

theorem cmdClear : Statement (.cmdClear) := fun _ => ⟨rfl, rfl⟩

theorem cmdHome : Statement (.cmdHome) := fun _ => ⟨rfl, rfl⟩

theorem cmdFunctionSet (twoLine font5x10 : Bool) : Statement (.cmdFunctionSet twoLine font5x10) := fun _ => ⟨rfl, rfl⟩

theorem cmdDisplayControl (displayOn cursor blink : Bool) : Statement (.cmdDisplayControl displayOn cursor blink) := fun _ => ⟨rfl, rfl⟩

theorem cmdSetCgram (slot : BitVec 3) : Statement (.cmdSetCgram slot) := fun _ => ⟨rfl, rfl⟩

theorem cmdSetDdram (addr : BitVec 7) : Statement (.cmdSetDdram addr) := fun _ => ⟨rfl, rfl⟩

theorem data (value : Byte) : Statement (.data value) := fun _ => ⟨rfl, rfl⟩

theorem resync8Bit : Statement (.resync8Bit) := fun _ => ⟨rfl, rfl⟩

theorem resyncCommit4Bit : Statement (.resyncCommit4Bit) := fun _ => ⟨rfl, rfl⟩

theorem statusSuccess : Statement (.statusSuccess) := fun _ => ⟨rfl, rfl⟩

theorem statusInvalidParameter : Statement (.statusInvalidParameter) := fun _ => ⟨rfl, rfl⟩

theorem statusBusy : Statement (.statusBusy) := fun _ => ⟨rfl, rfl⟩

end Sys2Proof.Laws.TableRow
end

