-- ==== Sys2Proof/Tests/Slice0.lean ====
section
/-! SUPPORT. Tests: single steps on small states with expected results from 95_test_vectors.md or written out from the
encodings, and for every statement with hypotheses a state and operands that meet them. -/

open Sys2Proof Sys2Proof.Machine

namespace Sys2Proof.Tests

/-! ### Small states -/

/-- Six different pins. -/
def pins : PinConfig := ⟨⟨1, 0⟩, ⟨1, 1⟩, ⟨2, 4⟩, ⟨2, 5⟩, ⟨2, 6⟩, ⟨2, 7⟩⟩

/-- Configuration A of 95_test_vectors.md. -/
def cfgA : DriverConfig := ⟨pins, ⟨50, 1, 50, 2000⟩, ⟨true, false, false, true, false⟩⟩

/-- Every line an output at low. -/
def lowLines : Lines :=
  ⟨⟨.output, .low⟩, ⟨.output, .low⟩, ⟨.output, .low⟩, ⟨.output, .low⟩, ⟨.output, .low⟩, ⟨.output, .low⟩⟩

/-- An attached controller in 4-bit mode, DDRAM selected at address 0. -/
def syncedLcd : Lcd := { Lcd.allUnknown with iface := .fourBit, mode := .ddram, ac := some 0 }

/-- A block that has been initialised, with short logs. -/
def ready : State :=
  { State.reset with
    cfg := cfgA
    line := lowLines
    ready := true
    trace := (PinConfig.toList pins).map .cfgOut
    lcd := syncedLcd }

/-- The glyph of vector V-O6. -/
def heart : Pattern := ⟨0x00, 0x0A, 0x1F, 0x1F, 0x1F, 0x0E, 0x04, 0x00⟩

/-- What an outcome's state holds in a field; the default of the field's type for a refusal. -/
def field {α : Type} (dflt : α) (f : State → α) : Result → α
  | .next t => f t
  | .fault _ => dflt
  | .refused _ => dflt

/-- The next state of an outcome, if there is one. -/
def nextOf : Result → Option State
  | .next t => some t
  | .fault _ => none
  | .refused _ => none

/-- The name of a refusal, if the outcome is one. -/
def refusalOf : Result → Option Refusal
  | .next _ => none
  | .fault _ => none
  | .refused r => some r

/-- The events after those of `ready`. -/
def newEvents (r : Result) : List Event := (field [] State.trace r).drop 6

/-- `W(l, v)` of configuration A. -/
def W (l : Line) (v : Level) : Event := .write (PinConfig.ofLine pins l) v

/-! ### Well-formedness: an ill-formed term for each check -/

theorem test_string_with_marker_is_ill_formed : Instr.wellFormed Config.defaults (.writeString (some [0x48, 0x00])) = false := by decide
theorem test_nibble_above_15_is_ill_formed : Instr.wellFormed Config.defaults (.writeNibble 0x10) = false := by decide
theorem test_operands_above_8_bits_are_ill_formed :
    Instr.wellFormed Config.defaults (.setCursor 256 0) = false ∧ Instr.wellFormed Config.defaults (.setCursor 0 256) = false ∧
    Instr.wellFormed Config.defaults (.writeChar 256) = false ∧ Instr.wellFormed Config.defaults (.writeString (some [256])) = false ∧
    Instr.wellFormed Config.defaults (.createGlyph 256 none) = false ∧
    Instr.wellFormed Config.defaults (.createGlyph 0 (some { heart with p7 := 256 })) = false := by decide
/-- A 16-bit W_TIME holds 65535 and not 65536; the marker is an element, so it must fit too. -/
theorem test_widths_are_checked :
    Instr.wellFormed { Config.defaults with wTime := some 16 } (.init (some { cfgA with time := ⟨65535, 1, 50, 2000⟩ })) = true ∧
    Instr.wellFormed { Config.defaults with wTime := some 16 } (.init (some { cfgA with time := ⟨65536, 1, 50, 2000⟩ })) = false ∧
    Instr.wellFormed { Config.defaults with stringEnd := 256 } (.writeString (some [])) = false := by decide
theorem test_string_without_marker_is_well_formed : Instr.wellFormed Config.defaults (.writeString (some [0x48, 0x49])) = true := by decide

/-! ### Decoding: words written out from 30_encoding.md R101 to R115, bit 0 first -/

/-- R102: selector 000, p = 1, six PinRefs, four durations, the five flags. -/
theorem test_decode_init_present :
    decode Config.defaults ⟨.host, [false, false, false, true] ++
      [false, false] ++ [false, true, true, false] ++ [false, true, false, true, true, false] ++
      [true, true, false, false] ++ [true, true, false, true, true, false] ++
      [true, true, false, true, false, true, true, false] ++
      [true, false, true, true, false] ++ [true, true, false] ++ [true, true, false] ++ [false] ++
      [true, false, false, true, false]⟩ =
    .ok (.init (some ⟨⟨⟨0, 0⟩, ⟨0, 1⟩, ⟨0, 2⟩, ⟨1, 0⟩, ⟨1, 1⟩, ⟨1, 2⟩⟩, ⟨2, 1, 1, 0⟩, ⟨true, false, false, true, false⟩⟩)) := by
  decide
theorem test_decode_init_absent : decode Config.defaults ⟨.host, [false, false, false, false]⟩ = .ok (.init none) := by decide
theorem test_decode_clear : decodeTableWord 3 0b001 = some .clear := by decide
theorem test_decode_home : decodeTableWord 3 0b010 = some .home := by decide
/-- P1 line 3: `011`, 01, 00. -/
theorem test_decode_set_cursor : decodeTableWord 24 (0b011 + 8 * 0x01 + 2048 * 0x00) = some (.setCursor 1 0) := by decide
/-- P2 line 5: `100`, E7. -/
theorem test_decode_write_char : decodeTableWord 11 (0b100 + 8 * 0xE7) = some (.writeChar 0xE7) := by decide
/-- P1 line 2: `101`, p = 1, 48 49 00. -/
theorem test_decode_write_string :
    decodeTableWord 28 (0b101 + 8 * 1 + 16 * 0x48 + 4096 * 0x49) = some (.writeString (some [0x48, 0x49])) := by decide
/-- P2 line 2: `110`, 00, p = 1, then the eight bytes. -/
theorem test_decode_create_glyph :
    decode Config.defaults ⟨.host, [false, true, true] ++ byteBits 0x00 ++ [true] ++ byteBits 0x00 ++ byteBits 0x0A ++ byteBits 0x1F ++
      byteBits 0x1F ++ byteBits 0x1F ++ byteBits 0x0E ++ byteBits 0x04 ++ byteBits 0x00⟩ =
    .ok (.createGlyph 0 (some heart)) := by decide
/-- R8: with W_OPERAND 16 the row and the column have 16 bits each (D3). -/
theorem test_decode_wide_operands :
    decode { Config.defaults with wOperand := 16 } ⟨.host, bitsOfNat 35 (0b011 + 8 * 0x0101 + 524288 * 0x0002)⟩ =
      .ok (.setCursor 0x0101 0x0002) := by decide
/-- R8: with W_TIME 4 each of the four durations has 4 bits: 5, 1, 9, 15. -/
theorem test_decode_bounded_durations :
    decode { Config.defaults with wTime := some 4 } ⟨.host, [false, false, false, true] ++ List.replicate 12 false ++
      [true, false, true, false] ++ [true, false, false, false] ++ [true, false, false, true] ++ [true, true, true, true] ++
      [false, false, false, false, false]⟩ =
    .ok (.init (some ⟨⟨⟨0, 0⟩, ⟨0, 0⟩, ⟨0, 0⟩, ⟨0, 0⟩, ⟨0, 0⟩, ⟨0, 0⟩⟩, ⟨5, 1, 9, 15⟩, ⟨false, false, false, false, false⟩⟩)) := by decide
/-- P4 line 2: `111`, p = 1, 1 1 1 1 0. -/
theorem test_decode_set_display :
    decodeTableWord 9 0 = none ∧
    decode Config.defaults ⟨.host, [true, true, true, true, true, true, true, true, false]⟩ =
      .ok (.setDisplay (some ⟨true, true, true, true, false⟩)) := by decide
theorem test_decode_pulse_enable :
    decode Config.defaults ⟨.ewave, [false, true, false]⟩ = .ok .pulseEnable ∧
    decode Config.defaults ⟨.ewave, [true, true, false]⟩ = .error .notEnableWaveform := by decide
/-- R105: 1010 has D1 and D3 high. -/
theorem test_decode_write_nibble : decode Config.defaults ⟨.frame4, [false, true, false, true]⟩ = .ok (.writeNibble 0xA) := by decide
/-- R106: `1 01001000` is the data byte 0x48. -/
theorem test_decode_write_byte :
    decode Config.defaults ⟨.frame9, [false, false, false, true, false, false, true, false, true]⟩ = .ok (.writeByte true 0x48) := by decide
theorem test_decode_cmd_clear : decodeTableWord 9 0b000000001 = some .cmdClear := by decide
theorem test_decode_cmd_home : decodeTableWord 9 0b000000010 = some .cmdHome := by decide
theorem test_decode_cmd_function_set : decodeTableWord 9 0b000101000 = some (.cmdFunctionSet true false) := by decide
theorem test_decode_cmd_display_control :
    decodeTableWord 9 0b000001110 = some (.cmdDisplayControl true true false) := by decide
theorem test_decode_cmd_set_cgram : decodeTableWord 9 0b001110000 = some (.cmdSetCgram 6) := by decide
theorem test_decode_cmd_set_ddram : decodeTableWord 9 0b011000101 = some (.cmdSetDdram 0x45) := by decide
theorem test_decode_data : decodeTableWord 9 0b101001001 = some (.data 0x49) := by decide
theorem test_decode_resync : decodeTableWord 4 0b0011 = some .resync8Bit ∧ decodeTableWord 4 0b0010 = some .resyncCommit4Bit := by decide
theorem test_decode_status :
    decodeTableWord 2 0 = some .statusSuccess ∧ decodeTableWord 2 1 = some .statusInvalidParameter ∧
    decodeTableWord 2 2 = some .statusBusy ∧ decodeTableWord 2 3 = none := by decide
/-- R116: entry mode, shift, 8-bit function set, an unaligned CGRAM address and 0x00 are never sent. -/
theorem test_decode_never_sent :
    decodeTableWord 9 0x006 = none ∧ decodeTableWord 9 0x010 = none ∧ decodeTableWord 9 0x030 = none ∧
    decodeTableWord 9 0x041 = none ∧ decodeTableWord 9 0x000 = none := by decide

/-! ### The fetch -/

/-- A word placed by `withFetchWord` is the next instruction: the status word 01 of R103. -/
theorem test_fetch_runs_status :
    field .success State.status (step (State.reset.withFetchWord 2 1)) = .invalidParameter := by decide
/-- P3 line 1: `init absent` is the first thing a reset block can fail at; READY stays false (V-I1). -/
theorem test_fetch_runs_init_absent :
    field true State.ready (step (State.reset.withFetchWord 8 0)) = false ∧
    field .success State.status (step (State.reset.withFetchWord 8 0)) = .invalidParameter := by decide
/-- R164: what the host presents is read as one of the eight operations; the bits of a frame are not a frame. -/
theorem test_host_bits_are_an_operation :
    nextOf (step { ready with inbox := [[false, true, false]] }) = nextOf (exec .home ready) := by decide
/-- A frame is run where the sequencer stands before it, and the sequencer is idle after it. -/
theorem test_internal_word_runs :
    nextOf (step (ready.withFetchWord 9 0b101001001)) = nextOf (exec (.data 0x49) ready) := by decide
/-- V-C27: `clear` before any `init` is refused. -/
theorem test_fetch_refuses_clear_at_reset : refusalOf (step (State.reset.withFetchWord 8 1)) = some .notReady := by decide

/-! ### The transfer primitives -/

/-- V-P1. -/
theorem test_pulse_enable :
    newEvents (exec .pulseEnable ready) = [W .e .low, .delayUs 1, W .e .high, .delayUs 1, W .e .low] := by decide
/-- V-P3: the upper bits are ignored. -/
theorem test_write_nibble :
    newEvents (exec (.writeNibble 0xF8) ready) =
      [W .d0 .low, W .d1 .low, W .d2 .low, W .d3 .high, W .e .low, .delayUs 1, W .e .high, .delayUs 1, W .e .low] ∧
    field [] State.nibLog (exec (.writeNibble 0xF8) ready) = [⟨.low, 0x8⟩] := by decide
/-- V-P4: high nibble first, RS high for data. -/
theorem test_write_byte :
    newEvents (exec (.writeByte true 0x48) ready) =
      [W .rs .high, W .d0 .low, W .d1 .low, W .d2 .high, W .d3 .low, W .e .low, .delayUs 1, W .e .high, .delayUs 1, W .e .low,
        W .d0 .low, W .d1 .low, W .d2 .low, W .d3 .high, W .e .low, .delayUs 1, W .e .high, .delayUs 1, W .e .low,
        .delayUs 50] := by decide
/-- V-P5. -/
theorem test_write_byte_command :
    field [] State.byteLog (exec (.writeByte false 0x00) ready) = [⟨.cmd, 0x00⟩] ∧
    field [] State.nibLog (exec (.writeByte false 0x00) ready) = [⟨.low, 0⟩, ⟨.low, 0⟩] := by decide
/-- V-I2, one resync nibble: no write of RS. -/
theorem test_resync_8bit :
    newEvents (exec .resync8Bit ready) =
      [W .d0 .high, W .d1 .high, W .d2 .low, W .d3 .low, W .e .low, .delayUs 1, W .e .high, .delayUs 1, W .e .low] := by decide
theorem test_resync_commit :
    newEvents (exec .resyncCommit4Bit ready) =
      [W .d0 .low, W .d1 .high, W .d2 .low, W .d3 .low, W .e .low, .delayUs 1, W .e .high, .delayUs 1, W .e .low] := by decide

/-! ### Command and data frames -/

theorem test_cmd_clear : field [] State.byteLog (exec .cmdClear ready) = [⟨.cmd, 0x01⟩] := by decide
theorem test_cmd_home : field [] State.byteLog (exec .cmdHome ready) = [⟨.cmd, 0x02⟩] := by decide
/-- V-I5. -/
theorem test_cmd_function_set :
    field [] State.byteLog (exec (.cmdFunctionSet false true) ready) = [⟨.cmd, 0x24⟩] ∧
    field [] State.byteLog (exec (.cmdFunctionSet true false) ready) = [⟨.cmd, 0x28⟩] := by decide
/-- V-I6. -/
theorem test_cmd_display_control :
    field [] State.byteLog (exec (.cmdDisplayControl true false true) ready) = [⟨.cmd, 0x0D⟩] := by decide
/-- V-C12. -/
theorem test_cmd_set_cgram : field [] State.byteLog (exec (.cmdSetCgram 6) ready) = [⟨.cmd, 0x70⟩] := by decide
/-- S6. -/
theorem test_cmd_set_ddram : field [] State.byteLog (exec (.cmdSetDdram 0x45) ready) = [⟨.cmd, 0xC5⟩] := by decide
theorem test_data : field [] State.byteLog (exec (.data 0xE7) ready) = [⟨.data, 0xE7⟩] := by decide

/-! ### The host operations -/

/-- V-I4: the byte log. -/
theorem test_init_bytes :
    field [] State.byteLog (exec (.init (some cfgA)) State.reset) = [⟨.cmd, 0x28⟩, ⟨.cmd, 0x0C⟩, ⟨.cmd, 0x01⟩] := by decide
/-- V-I9. -/
theorem test_init_shared_pins :
    refusalOf (exec (.init (some { cfgA with pin := { pins with e := pins.rs } })) State.reset) = some .sharedPins := by decide
/-- V-C1: the last two events. -/
theorem test_clear : (newEvents (exec .clear ready)).drop 19 = [.delayUs 50, .delayUs 2000] := by decide
/-- V-C2: one wait. -/
theorem test_home :
    field [] State.nibLog (exec .home ready) = [⟨.low, 0⟩, ⟨.low, 2⟩] ∧ (newEvents (exec .home ready)).length = 20 := by decide
/-- V-C7. -/
theorem test_set_cursor : field [] State.byteLog (exec (.setCursor 1 15) ready) = [⟨.cmd, 0xCF⟩] := by decide
/-- V-C9. -/
theorem test_set_cursor_fails :
    nextOf (exec (.setCursor 0 16) ready) = some { ready with status := .invalidParameter } := by decide
/-- V-C21 and V-O2's shape: a zero byte is sent and stored. -/
theorem test_write_char :
    field [] State.nibLog (exec (.writeChar 0x00) ready) = [⟨.high, 0⟩, ⟨.high, 0⟩] ∧
    field [] (fun t => t.lcd.ddram) (exec (.writeChar 0x41) ready) = [(0, 0x41)] := by decide
/-- V-C23. -/
theorem test_write_string :
    field [] State.byteLog (exec (.writeString (some [0x48, 0x49])) ready) = [⟨.data, 0x48⟩, ⟨.data, 0x49⟩] := by decide
/-- V-C24. -/
theorem test_write_string_empty : nextOf (exec (.writeString (some [])) ready) = some ready := by decide
/-- V-C16. -/
theorem test_create_glyph_absent :
    nextOf (exec (.createGlyph 3 none) ready) = some { ready with status := .invalidParameter } := by decide
/-- V-O6 in slot 1: keys 8 to 15. -/
theorem test_create_glyph :
    field [] (fun t => t.lcd.cgram) (exec (.createGlyph 1 (some heart)) ready) =
      [(8, 0x00), (9, 0x0A), (10, 0x1F), (11, 0x1F), (12, 0x1F), (13, 0x0E), (14, 0x04), (15, 0x00)] := by decide
/-- V-C18: two flags are stored, not sent. -/
theorem test_set_display :
    field [] State.byteLog (exec (.setDisplay (some ⟨false, false, false, false, true⟩)) ready) = [⟨.cmd, 0x08⟩] ∧
    field cfgA State.cfg (exec (.setDisplay (some ⟨false, false, false, false, true⟩)) ready) =
      { cfgA with disp := ⟨false, false, false, false, true⟩ } := by decide
theorem test_status_success : nextOf (exec .statusSuccess { ready with status := .invalidParameter }) = some ready := by decide
/-- V-S1. -/
theorem test_status_busy : refusalOf (exec .statusBusy ready) = some .busyReserved := by decide

/-! ### The attached controller -/

/-- V-O3 and V-O4: at the end of the row the address becomes unknown, and the next byte loses every cell. -/
theorem test_row_end :
    Lcd.dataByte 0x41 { syncedLcd with ac := some 0x4F } = { syncedLcd with ac := none, ddram := [(0x4F, 0x41)] } ∧
    Lcd.dataByte 0x42 { syncedLcd with ac := none, ddram := [(0x4F, 0x41)] } = { syncedLcd with ac := none, ddram := [] } := by
  decide
/-- R84: a set-CGRAM-address byte selects CGRAM. -/
theorem test_lcd_cgram : Lcd.command 0x20 0x48 syncedLcd = { syncedLcd with mode := .cgram, ac := some 8 } := by decide
theorem test_reset_memory_wf : Memory.wf State.reset.lcd.ddram ∧ Memory.wf State.reset.lcd.cgram := by decide

/-! ### Witnesses: the hypotheses of every statement can be met -/

/-- `ready` with requests presented. -/
def presented (ws : List (List Bool)) : State := { ready with inbox := ws }

/-- The request for `clear`. -/
def clearWord : List Bool := [true, false, false]

theorem ready_linesSound : ready.LinesSound :=
  ⟨rfl, rfl, fun _ => by decide, fun _ => rfl, fun l => by cases l <;> decide⟩

theorem synced_sound : Lcd.Sound syncedLcd :=
  ⟨by decide, by decide, by decide, by decide, fun h => (nomatch h), fun h => (nomatch h)⟩

/-- A fresh block whose pins come up high (R266). -/
def resetHigh : State := { State.reset with par := { Config.defaults with configLevel := .high } }

theorem reset_linesSound : State.reset.LinesSound ∧ resetHigh.LinesSound :=
  ⟨⟨rfl, rfl, fun h => (nomatch h), fun h => (nomatch h), fun l => by cases l <;> rfl⟩,
    ⟨rfl, rfl, fun h => (nomatch h), fun h => (nomatch h), fun l => by cases l <;> rfl⟩⟩

theorem witness_StepRunsThePresentedWord :
    State.reset.seq = .idle ∧ State.reset.inbox = [] ∧
    (presented [clearWord]).seq = .idle ∧ decode (presented [clearWord]).par ⟨.host, clearWord⟩ = .ok .clear ∧
    decode Config.defaults ⟨.host, [true]⟩ = .error .truncated ∧
    (ready.withFetchWord 2 0).seq = .internal (tableRequest 2 0) ∧
    decode ready.par (tableRequest 2 0) = .ok .statusSuccess ∧
    decode ready.par (tableRequest 2 3) = .error .unusedStatusCode := by decide
theorem witness_DecodeOfEncode :
    Instr.wellFormed Config.defaults (.init (some cfgA)) = true ∧ Instr.wellFormed Config.defaults (.writeNibble 0x0F) = true ∧
    Instr.wellFormed Config.defaults (.writeString (some [0xFF])) = true := by decide
theorem witness_EncodeOfDecodedFrame :
    (⟨.resync4, [true, true, false, false]⟩ : Request).format ≠ .host ∧
    [true, true, false, false].length = frameWidth .resync4 ∧
    decode Config.defaults ⟨.resync4, [true, true, false, false]⟩ = .ok .resync8Bit := by decide
theorem witness_DecodedIsWellFormed :
    decode Config.defaults ⟨.host, [true, false, true, true] ++ byteBits 0x48 ++ byteBits 0x00⟩ = .ok (.writeString (some [0x48])) := by decide
/-- Both outcomes, at values where the ranges meet. -/
theorem witness_CommandFramesDecodeByTheirRows :
    decode Config.defaults ⟨.cmd9, byteBits 0x02 ++ false :: []⟩ = .ok .cmdHome ∧
    decode Config.defaults ⟨.cmd9, byteBits 0x03 ++ false :: []⟩ = .error .neverSentCommand ∧
    decode Config.defaults ⟨.cmd9, byteBits 0x0F ++ false :: []⟩ = .ok (.cmdDisplayControl true true true) ∧
    decode Config.defaults ⟨.cmd9, byteBits 0x10 ++ false :: []⟩ = .error .neverSentCommand ∧
    decode Config.defaults ⟨.cmd9, byteBits 0x2C ++ false :: []⟩ = .ok (.cmdFunctionSet true true) ∧
    decode Config.defaults ⟨.cmd9, byteBits 0x7F ++ false :: []⟩ = .error .neverSentCommand ∧
    decode Config.defaults ⟨.cmd9, byteBits 0x80 ++ false :: []⟩ = .ok (.cmdSetDdram 0) := by decide
theorem witness_PulseEnableWaveform : ready.seq = .idle ∧ ready.line.allOutput = true := by decide
theorem witness_NibbleFrame : ready.seq = .idle ∧ ready.line.allOutput = true := by decide
theorem witness_ByteFrame : ready.seq = .idle ∧ ready.line.allOutput = true := by decide
theorem witness_ResyncNibbleFrames : ready.seq = .idle ∧ ready.line.allOutput = true := by decide
theorem witness_CommandAndDataFrames :
    ready.seq = .idle ∧ ready.line.allOutput = true ∧ Params.standardCommands ready.par = true ∧
    decode ready.par ⟨.cmd9, byteBits 0x70 ++ [false]⟩ = .ok (.cmdSetCgram 6) ∧
    decode ready.par ⟨.cmd9, byteBits 0x70 ++ [true]⟩ = .ok (.data 0x70) := by decide
theorem witness_CommandFieldsDoNotOverlap :
    Params.standardCommands Config.defaults = true ∧ 7 < 8 ∧ (setCgram Config.defaults 7).toNat = 0x78 := by decide
theorem witness_StatusIsDelivered : State.reset.seq = .idle := rfl
theorem witness_BusyIsNeverReturned : (∃ t, exec .clear ready = .next t) ∧ ready.status ≠ .busy := ⟨⟨_, rfl⟩, by decide⟩
theorem witness_InitRunsTheWholeSequence : State.reset.seq = .idle ∧ PinConfig.distinct cfgA.pin = true := by decide
theorem witness_ResyncNibblesAreConstant : ∃ t, exec (.init (some cfgA)) State.reset = .next t := ⟨_, rfl⟩
theorem witness_InitRefusesSharedPins :
    State.reset.seq = .idle ∧ ¬ (PinConfig.toList { pins with e := pins.rs }).Nodup := by decide
theorem witness_ClearEffect : ready.operational = true := rfl
theorem witness_HomeEffect : ready.operational = true := rfl
/-- The corners of the accepted rectangle and the values just outside it. -/
theorem witness_SetCursorEffect :
    ready.operational = true ∧ (1 < 2 ∧ 15 < 16) ∧ ¬ (2 < 2 ∧ 0 < 16) ∧ ¬ (0 < 2 ∧ 16 < 16) ∧
    ¬ (255 < 2 ∧ 255 < 16) := by decide
theorem witness_WriteCharEffect : ready.operational = true := rfl
/-- A string that ends with the operand, and one that ends at its marker. -/
theorem witness_WriteStringEffect :
    ready.operational = true ∧ (∀ b ∈ ([0x48, 0x49] : List Nat), b ≠ ready.par.stringEnd) ∧
    (∀ b, ([] : List Nat).head? = some b → b = ready.par.stringEnd) ∧
    (∀ b, ([0x00, 0x41] : List Nat).head? = some b → b = ready.par.stringEnd) := by
  refine ⟨rfl, by decide, by simp, fun b h => ?_⟩
  exact (Option.some.inj h).symm
theorem witness_CreateGlyphEffect :
    ready.operational = true ∧ 7 ≤ 7 ∧ 7 < 8 ∧ (some heart = none ∨ 7 < 8) := by decide
theorem witness_SetDisplayEffect : ready.operational = true := rfl
theorem witness_InvalidParameterCauses :
    isHostOperation (.setCursor 2 0) = true ∧ (∃ t, exec (.setCursor 2 0) ready = .next t) ∧
    violatesParameters (.setCursor 2 0) = true ∧ isHostOperation .clear = true ∧ (∃ t, exec .clear ready = .next t) ∧
    violatesParameters .clear = false := ⟨rfl, ⟨_, rfl⟩, rfl, rfl, ⟨_, rfl⟩, rfl⟩
theorem witness_FailureHasNoEffect :
    isHostOperation (.createGlyph 8 (some heart)) = true ∧ violatesParameters (.createGlyph 8 (some heart)) = true ∧
    ready.seq = .idle ∧ ready.ready = true ∧ violatesParameters (.init none) = true ∧ State.reset.seq = .idle := by decide
theorem witness_NextOperationIgnoresAFailure :
    violatesParameters (.setCursor 9 9) = true ∧ (∃ t, exec (.setCursor 9 9) ready = .next t) ∧
    isHostOperation (.writeChar 0x41) = true := ⟨rfl, ⟨_, rfl⟩, rfl⟩
theorem witness_ReadyGatesTheOperations :
    isHostOperation .clear = true ∧ (∀ c, Instr.clear ≠ .init c) ∧ State.reset.seq = .idle ∧ State.reset.ready = false ∧
    (∃ t, exec (.init (some cfgA)) State.reset = .next t) ∧ (∃ t, exec .clear ready = .next t) :=
  ⟨rfl, fun _ h => (nomatch h), rfl, rfl, ⟨_, rfl⟩, ⟨_, rfl⟩⟩
theorem witness_OneOperationAtATime :
    ({ ready with seq := .running .clear 3 } : State).seq ≠ .idle ∧ (ready.withFetchWord 2 0).seq ≠ .idle := by decide
theorem witness_TransfersNeedConfiguredLines :
    isHostOperation .pulseEnable = false ∧ State.reset.seq = .idle ∧ State.reset.line.allOutput = false := by decide
theorem witness_ConfigurationWriters :
    (∃ t, exec (.init (some cfgA)) State.reset = .next t) ∧ (∃ t, exec (.setDisplay (some cfgA.disp)) ready = .next t) ∧
    (∃ t, exec .home ready = .next t) := ⟨⟨_, rfl⟩, ⟨_, rfl⟩, ⟨_, rfl⟩⟩
theorem witness_EventCounts :
    ready.par.tModeCommit = none ∧ ready.par.homeExtraDelay = false ∧
    (∀ b ∈ ([0x48] : List Nat), b ≠ ready.par.stringEnd) ∧ (∃ t, exec (.writeString (some [0x48])) ready = .next t) ∧
    (∃ t, exec (.setCursor 2 16) ready = .next t) := ⟨rfl, rfl, by decide, ⟨_, rfl⟩, ⟨_, rfl⟩⟩
theorem witness_LeastBlockingTimes :
    ready.par.tModeCommit = none ∧ ready.par.homeExtraDelay = false ∧ isHostOperation .clear = true ∧
    violatesParameters .clear = false ∧ (∃ t, exec .clear ready = .next t) := ⟨rfl, rfl, rfl, rfl, ⟨_, rfl⟩⟩
/-- The first event of `clear` and its last. -/
theorem witness_EachStepEmitsOneEvent :
    expansion ready.par ready.cfg.time .clear = some (clearMicros ready.par ready.cfg.time) ∧
    (clearMicros ready.par ready.cfg.time)[0]? = some (Action.setOutput .rs .low).plain ∧
    (clearMicros ready.par ready.cfg.time)[20]? = some (Action.delayUs 2000).plain ∧
    (clearMicros ready.par ready.cfg.time).length = 21 := by decide
theorem witness_EventByEventAgreesWithExec :
    isHostOperation .clear = true ∧ start .clear State.reset = .refused .notReady ∧ (∃ t, start .clear ready = .next t) :=
  ⟨rfl, rfl, ⟨_, rfl⟩⟩
theorem witness_StepKeepsLinesSound :
    (presented [clearWord]).LinesSound ∧ ∃ t, step (presented [clearWord]) = .next t :=
  ⟨⟨ready_linesSound.1, ready_linesSound.2, ready_linesSound.3, ready_linesSound.4, ready_linesSound.5⟩, ⟨_, rfl⟩⟩
theorem witness_StepKeepsLcdSound :
    Lcd.Sound (presented [clearWord]).lcd ∧ (∃ t, step (presented [clearWord]) = .next t) ∧
    (∃ t, step (ready.withFetchWord 9 1) = .next t) ∧ ∃ t, step { ready with seq := .running .clear 19 } = .next t :=
  ⟨synced_sound, ⟨_, rfl⟩, ⟨_, rfl⟩, ⟨_, rfl⟩⟩
theorem witness_NoOperationEndsInCgramMode :
    Params.standardCommands (presented [clearWord]).par = true ∧
    (presented [clearWord]).seq = .idle ∧ (presented [clearWord]).lcd.mode ≠ .cgram ∧
    ∃ t, step (presented [clearWord]) = .next t := ⟨rfl, rfl, by decide, ⟨_, rfl⟩⟩
theorem witness_OnlyListedCommandsReachTheBus :
    Params.standardCommands (presented [clearWord]).par = true ∧
    (presented [clearWord]).seq = .idle ∧
    (∀ e ∈ (presented [clearWord]).byteLog, e.kind = .cmd → isSentCommand e.value = true) ∧
    ∃ t, step (presented [clearWord]) = .next t := ⟨rfl, rfl, by decide, ⟨_, rfl⟩⟩
theorem witness_StepOnlyAppends : ∃ t, step (presented [clearWord]) = .next t := ⟨_, rfl⟩
theorem witness_UnnamedPinsKeepTheirLevel :
    (∃ t, exec .clear ready = .next t) ∧ (⟨9, 9⟩ : PinRef) ∉ PinConfig.toList ready.cfg.pin := ⟨⟨_, rfl⟩, by decide⟩
theorem witness_NibbleLogFollowsFromTheTrace :
    isHostOperation .clear = true ∧ ready.LinesSound ∧ (∃ t, exec .clear ready = .next t) ∧
    State.reset.par.configLevel = .low ∧ State.reset.LinesSound ∧ (∃ t, exec (.init (some cfgA)) State.reset = .next t) ∧
    resetHigh.par.configLevel = .high ∧ resetHigh.LinesSound ∧ ∃ t, exec (.init (some cfgA)) resetHigh = .next t :=
  ⟨rfl, ready_linesSound, ⟨_, rfl⟩, rfl, reset_linesSound.1, ⟨_, rfl⟩, rfl, reset_linesSound.2, ⟨_, rfl⟩⟩
theorem witness_NibblesAreTheHalvesOfBytes :
    isHostOperation (.writeChar 0x48) = true ∧ (∃ t, exec (.writeChar 0x48) ready = .next t) ∧
    ∃ t, exec (.init (some cfgA)) State.reset = .next t := ⟨rfl, ⟨_, rfl⟩, ⟨_, rfl⟩⟩
/-- An initialised block with CONFIG_LEVEL high. -/
def readyHigh : State := { ready with par := { Config.defaults with configLevel := .high }, trace := ready.trace ++
  [W .rs .low, W .e .low, W .d0 .low, W .d1 .low, W .d2 .low, W .d3 .low] }

theorem readyHigh_linesSound : readyHigh.LinesSound :=
  ⟨rfl, rfl, fun _ => by decide, fun _ => rfl, fun l => by cases l <;> decide⟩

/-- `home` at a high CONFIG_LEVEL, and `init` at both levels. -/
theorem witness_LinesAreStableWhileEnableIsHigh :
    (isHostOperation .home = true ∧ (∀ c, Instr.home ≠ .init (some c)) ∧ readyHigh.LinesSound ∧
      readyHigh.par.configLevel = .high ∧ ∃ t, exec .home readyHigh = .next t) ∧
    (State.reset.LinesSound ∧ State.reset.par.configLevel = .low ∧ ∃ t, exec (.init (some cfgA)) State.reset = .next t) ∧
    (resetHigh.LinesSound ∧ resetHigh.par.configLevel = .high ∧ ∃ t, exec (.init (some cfgA)) resetHigh = .next t) :=
  ⟨⟨rfl, fun _ h => (nomatch h), readyHigh_linesSound, rfl, ⟨_, rfl⟩⟩, ⟨reset_linesSound.1, rfl, ⟨_, rfl⟩⟩,
    ⟨reset_linesSound.2, rfl, ⟨_, rfl⟩⟩⟩
/-- The two minimums themselves are sane, one microsecond less is not; an unknown interface. -/
theorem witness_ObserverCommandTable :
    TimingConfig.sane ⟨0, 0, 37, 1500⟩ = true ∧ TimingConfig.sane ⟨0, 0, 36, 1500⟩ = false ∧
    TimingConfig.sane ⟨0, 0, 37, 1499⟩ = false ∧ syncedLcd.iface = .fourBit ∧ Lcd.allUnknown.iface = .unknown := by decide
/-- A data byte at each boundary: the last column of each row, the address behind it, the last byte of CGRAM, the address
behind it, an unknown address. -/
theorem witness_ObserverDataByte :
    TimingConfig.sane cfgA.time = true ∧ syncedLcd.iface = .fourBit ∧
    onScreen (0x0F : BitVec 7).toNat = true ∧ onScreen (0x4F : BitVec 7).toNat = true ∧ onScreen 0x10 = false ∧
    (63 : BitVec 7).toNat < 64 ∧ ({ syncedLcd with mode := .cgram, ac := some 63 } : Lcd).mode = .cgram ∧
    ({ syncedLcd with ac := none } : Lcd).ac = none ∧
    ({ syncedLcd with ac := some 0x10 } : Lcd).mode = .ddram ∧ onScreen (0x10 : BitVec 7).toNat = false ∧
    onScreen (0x3F : BitVec 7).toNat = false ∧ onScreen (0x50 : BitVec 7).toNat = false ∧ 64 ≤ (64 : BitVec 7).toNat := by decide
theorem witness_InitMakesTheDisplayKnown :
    State.reset.seq = .idle ∧ PinConfig.distinct cfgA.pin = true ∧ Params.standardCommands State.reset.par = true ∧
    State.reset.par.configLevel = .low ∧ TimingConfig.sane cfgA.time = true := by decide
/-- V-O7's `t_cmd = 36`, V-O8's high pins. -/
theorem witness_InitCanLoseTheDisplay :
    TimingConfig.sane { cfgA.time with tCmd := 36 } = false ∧ resetHigh.par.configLevel = .high ∧
    (∃ t, exec (.init (some { cfgA with time := { cfgA.time with tCmd := 36 } })) State.reset = .next t) ∧
    ∃ t, exec (.init (some cfgA)) resetHigh = .next t := ⟨by decide, rfl, ⟨_, rfl⟩, ⟨_, rfl⟩⟩
theorem witness_GlyphReachesItsSlot :
    ready.operational = true ∧ Params.standardCommands ready.par = true ∧ TimingConfig.sane ready.cfg.time = true ∧
    ready.lcd.iface = .fourBit ∧ 7 ≤ 7 ∧ (Pattern.toList heart)[7]? = some 0x00 := by decide
/-- A block whose attached controller stands at the last but one column of the first row. -/
def nearRowEnd : State := ready.setLcd { syncedLcd with ac := some 0x0E }

/-- Two characters that end the first row. -/
theorem witness_TextReachesTheScreen :
    nearRowEnd.operational = true ∧ TimingConfig.sane nearRowEnd.cfg.time = true ∧ nearRowEnd.lcd.iface = .fourBit ∧
    nearRowEnd.lcd.mode = .ddram ∧ nearRowEnd.lcd.ac = some 0x0E ∧ ([0x48, 0x49] : List Nat) ≠ [] ∧
    (∀ b ∈ ([0x48, 0x49] : List Nat), b ≠ nearRowEnd.par.stringEnd) ∧
    ∀ i, i < ([0x48, 0x49] : List Nat).length → onScreen ((0x0E : BitVec 7).toNat + i) = true := by decide
theorem witness_SetDisplayLeavesLinesAndFont :
    ready.operational = true ∧ Params.standardCommands ready.par = true ∧ TimingConfig.sane ready.cfg.time = true ∧
    ready.lcd.iface = .fourBit := by decide
theorem witness_ClearIsIdempotentOnTheAddress :
    ready.operational = true ∧ Params.standardCommands ready.par = true ∧ TimingConfig.sane ready.cfg.time = true ∧
    ready.lcd.iface = .fourBit := by decide
theorem witness_StrayTransfersLoseTheDisplay :
    (∃ t, exec .pulseEnable ready = .next t) ∧ (∃ t, exec (.writeNibble 0xA) ready = .next t) ∧
    (∃ t, exec .resync8Bit ready = .next t) ∧ ∃ t, exec .resyncCommit4Bit ready = .next t :=
  ⟨⟨_, rfl⟩, ⟨_, rfl⟩, ⟨_, rfl⟩, ⟨_, rfl⟩⟩
/-- A request for an operation, one that ends early, and steps from each position of the sequencer. -/
theorem witness_TheHostReachesOnlyTheEightOperations :
    (presented [clearWord]).seq = .idle ∧ (presented [clearWord]).inbox = [clearWord] ∧
    decode ready.par ⟨.host, [true, true, false, true]⟩ = .error .truncated ∧
    (∃ t, step (presented [clearWord]) = .next t) ∧ (∃ t, step (ready.withFetchWord 9 1) = .next t) ∧
    ∃ t, step { ready with seq := .running .clear 19 } = .next t :=
  ⟨rfl, rfl, by decide, ⟨_, rfl⟩, ⟨_, rfl⟩, ⟨_, rfl⟩⟩
theorem witness_StepKeepsTimingInItsWidth :
    TimingConfig.fits { Config.defaults with wTime := some 16 } cfgA.time = true ∧
    ∃ t, step { presented [clearWord] with par := { Config.defaults with wTime := some 16 } } = .next t :=
  ⟨by decide, ⟨_, rfl⟩⟩
theorem witness_MemoryWriteThenRead : Memory.wf (clearedDdram 0x20) := clearedDdram_wf _

end Sys2Proof.Tests
end

section
/-! SUPPORT. What an instruction that answers leaves in `CFG` (10_state.md R28), and the statement about it. -/

namespace Sys2Proof.Machine

/-- What `CFG` holds after `i` answers from a state that held `cfg`: only `init` and `set_display` with their operand present
write it, the latter its display section (R28). -/
def cfgAfter (i : Instr) (cfg : DriverConfig) : DriverConfig :=
  match i with
  | .init (some c) => c
  | .setDisplay (some f) => { cfg with disp := f }
  | _ => cfg

/-- No internal transfer writes `CFG`. -/
theorem cfgAfter_of_transferMicros_eq_some {i : Instr} {par : Params} {time : TimingConfig} {ms : List Micro}
    (h : transferMicros par time i = some ms) (cfg : DriverConfig) : cfgAfter i cfg = cfg := by
  cases i with
  | init c => cases h
  | setDisplay f => cases h
  | _ => rfl

/-- An operation that fails its check does not write `CFG`; neither does a status result, which has no expansion (R226). -/
theorem cfgAfter_of_expansion_eq_none {i : Instr} {par : Params} {time : TimingConfig}
    (h : expansion par time i = none) (cfg : DriverConfig) : cfgAfter i cfg = cfg := by
  cases i with
  | init c =>
    cases c with
    | none => rfl
    | some c => cases h
  | setDisplay f =>
    cases f with
    | none => rfl
    | some f => cases h
  | _ => rfl

/-- A host operation other than `init` writes `CFG` only in what it stores at its end (R185). -/
theorem finish_cfg {op : Instr} (hi : ∀ c, op ≠ .init c) (s : State) : (finish op s).cfg = cfgAfter op s.cfg := by
  cases op with
  | init c => exact absurd rfl (hi c)
  | setDisplay f => cases f <;> rfl
  | _ => rfl

/-- `CFG` after any instruction that answers. -/
theorem exec_cfg {i : Instr} {s t : State} (h : exec i s = .next t) : t.cfg = cfgAfter i s.cfg := by
  obtain ⟨_, ha⟩ := exec_eq_next h
  cases ha with
  | transfer ms hm _ ht =>
    rw [ht, runMicros_cfg, cfgAfter_of_transferMicros_eq_some hm]
  | status st _ hst ht =>
    have hn : expansion s.par s.cfg.time i = none := by
      obtain ⟨rfl, _⟩ | ⟨rfl, _⟩ | ⟨_, hn, _⟩ := hst
      · rfl
      · rfl
      · exact hn
    rw [ht, State.deliver_cfg, cfgAfter_of_expansion_eq_none hn]
  | init c hc _ ht =>
    subst hc
    simp [ht, cfgAfter]
  | host ms _ hi _ _ _ ht =>
    rw [ht, finish_cfg hi, runMicros_cfg]

/-- Settles O33, by `exec_cfg`: the cases of the statement's match are those of `cfgAfter`. -/
theorem configurationWriters : Obligations.ConfigurationWriters := by
  unfold Obligations.ConfigurationWriters
  refine ⟨rfl, rfl, fun l => by cases l <;> rfl, fun i s t h => ?_⟩
  have hcfg := exec_cfg h
  cases i with
  | init c => cases c <;> exact hcfg
  | setDisplay f => cases f <;> exact hcfg
  | _ => exact hcfg

end Sys2Proof.Machine
end

section
/-! SUPPORT. A transfer whose events are the frame of one byte, run whole (42_transfer_primitives.md R162), and the statement
about `write_byte`. -/

namespace Sys2Proof.Machine

/-- The frame of one byte, run from an idle block with all lines outputs, is a byte transfer (R162). -/
theorem transfersByte_of_transferMicros {i : Instr} {s : State} {k : ByteKind} {v : Byte}
    (hm : transferMicros s.par s.cfg.time i = some (byteMicros s.cfg.time k v)) (hi : s.seq = .idle)
    (hc : s.line.allOutput = true) : transfersByte i s k v := by
  have hrun : exec i s = .next (runMicros (byteMicros s.cfg.time k v) s) := by rw [exec_transfer hm, transfer_run hi hc]
  have hone : bytesMicros s.cfg.time [⟨k, v⟩] = byteMicros s.cfg.time k v := List.append_nil _
  have hbytes := run_bytes [⟨k, v⟩] s hc
  rw [hone] at hbytes
  exact ⟨_, hrun, hbytes⟩

/-- Settles O11: the events of `write_byte` are the frame of its operand. -/
theorem byteFrame : Obligations.ByteFrame := by
  unfold Obligations.ByteFrame
  intro s r v hi hc
  exact transfersByte_of_transferMicros rfl hi hc

end Sys2Proof.Machine
end

section
/-! SUPPORT. What a successful `init` adds to the nibble log: the resync nibbles, then two nibbles for each byte
(41_initialization.md R141, R142), and the statement about the resync nibbles. -/

namespace Sys2Proof.Machine

/-- The nibble-log entries of the resync sequence, with RS at CONFIG_LEVEL (R141). -/
def resyncNibbles (par : Params) : List NibbleEntry :=
  [0x3, 0x3, 0x3, 0x2].map fun n => ⟨Level.toLine par.configLevel, n⟩

/-- Every byte is latched as two nibbles (20_memory.md R77). -/
theorem length_flatMap_byteNibbles (bytes : List ByteEntry) :
    (bytes.flatMap fun e => byteNibbles e.kind e.value).length = 2 * bytes.length := by
  induction bytes with
  | nil => rfl
  | cons e es ih =>
    have htwo : (byteNibbles e.kind e.value).length = 2 := rfl
    simp only [List.flatMap_cons, List.length_append, List.length_cons, htwo, ih]
    omega

/-- An `init` that answers with its configuration present latched the resync nibbles and then those of its bytes (R142). -/
theorem exec_init_nibLog {s t : State} {c : DriverConfig} (h : exec (.init (some c)) s = .next t) :
    t.nibLog = s.nibLog ++ resyncNibbles s.par ++
      (initBytes s.par c).flatMap fun e => byteNibbles e.kind e.value := by
  obtain ⟨_, ⟨hnone, _⟩ | ⟨c', hc, _, ht⟩⟩ := execInit_eq_next (config := some c) h
  · cases hnone
  · cases hc
    obtain ⟨u, hu, ⟨_, hnib, _⟩, _⟩ := run_initMicros s c
    rw [ht, hu, State.deliver_nibLog, State.setReady_nibLog, hnib, List.append_assoc]
    rfl

/-- Settles O18, by `exec_init_nibLog`: the values of `resyncNibbles` do not depend on the configuration, and `init` sends
three bytes. -/
theorem resyncNibblesAreConstant : Obligations.ResyncNibblesAreConstant := by
  unfold Obligations.ResyncNibblesAreConstant
  intro s t c h
  exact ⟨resyncNibbles s.par, _, exec_init_nibLog h, rfl, length_flatMap_byteNibbles (initBytes s.par c)⟩

end Sys2Proof.Machine
end

section
/-! SUPPORT. A host operation other than `init`, presented to an operational block, always answers: its parameters are out of
range or absent and it fails (60_exceptions.md R221, R226), or its bytes and its last waits go out whole
(43_command_operations.md R180). The statements about `clear` and `set_display`. -/

namespace Sys2Proof.Machine

theorem operational_iff (s : State) :
    s.operational = true ↔ s.seq = .idle ∧ s.ready = true ∧ s.line.allOutput = true := by
  simp [State.operational, and_assoc]

/-- The waits of an operation after its last byte, as events (R181, R182). -/
def tailEvents (s : State) (op : Instr) : List Event :=
  (opTail s.par s.cfg.time op).map fun m => m.act.event s.cfg.pin

/-- The run of a host operation other than `init`: its bytes, each in its frame, and then its last waits. -/
theorem sendsBytes_finish (op : Instr) {s : State} (hc : s.line.allOutput = true) :
    sendsBytes s (finish op (runMicros (bytesMicros s.cfg.time (opBytes s.par op) ++ opTail s.par s.cfg.time op) s))
      (opBytes s.par op) (tailEvents s op) := by
  obtain ⟨events, _, hsent⟩ := run_opBytes op s hc
  suffices hev : events = tailEvents s op from hev ▸ hsent
  obtain ⟨⟨htrace, _⟩, _⟩ := hsent
  obtain ⟨⟨⟨hbytes, _⟩, _⟩, _⟩ := run_bytes (opBytes s.par op) s hc
  obtain ⟨_, hfinish, _⟩ := finish_eq op
    (runMicros (bytesMicros s.cfg.time (opBytes s.par op) ++ opTail s.par s.cfg.time op) s)
  rw [hfinish, runMicros_append, runMicros_trace, hbytes] at htrace
  simpa [tailEvents] using htrace.symm

/-- Only `init` writes READY (R29). -/
theorem finish_ready {op : Instr} (hi : ∀ c, op ≠ .init c) (s : State) : (finish op s).ready = s.ready := by
  cases op with
  | init c => exact absurd rfl (hi c)
  | setDisplay f => cases f <;> rfl
  | _ => rfl

section
variable {op : Instr} {s : State}

/-- Out of range or absent parameters: InvalidParameter and no other change (R221, R226). -/
theorem exec_of_violatesParameters (hs : s.operational = true) (hh : isHostOperation op = true) (hi : ∀ c, op ≠ .init c)
    (hv : violatesParameters op = true) : exec op s = .next { s with status := .invalidParameter } := by
  obtain ⟨hq, hr, _⟩ := (operational_iff s).mp hs
  have hnone : expansion s.par s.cfg.time op = none := (expansion_eq_none_iff hh ..).mpr hv
  rw [exec_hostOperation hh hi, hnone, hostOperation_fail hq hr, State.deliver, ← hq]

/-- Parameters in range: the operation's bytes and last waits go out, `CFG` is written as `cfgAfter` says, the status is
Success, and READY, the presented requests and the parameters stay (R180). -/
theorem exec_of_not_violatesParameters (hs : s.operational = true) (hh : isHostOperation op = true)
    (hi : ∀ c, op ≠ .init c) (hv : violatesParameters op = false) :
    ∃ t, exec op s = .next t ∧ sendsBytes s t (opBytes s.par op) (tailEvents s op) ∧ t.cfg = cfgAfter op s.cfg ∧
      t.seq = .idle ∧ t.ready = s.ready ∧ t.inbox = s.inbox ∧ t.par = s.par ∧ t.status = .success := by
  obtain ⟨hq, hr, hc⟩ := (operational_iff s).mp hs
  have hsome : expansion s.par s.cfg.time op ≠ none := by
    rw [Ne, expansion_eq_none_iff hh, hv]
    exact Bool.false_ne_true
  obtain ⟨ms, hms⟩ := Option.ne_none_iff_exists'.mp hsome
  have hrun : exec op s = .next (finish op (runMicros ms s)) := by
    rw [exec_hostOperation hh hi, hms, hostOperation_run hq hr hc, finish]
  obtain ⟨_, _, _, _, _, hinbox, hpar, _⟩ := finish_eq op (runMicros ms s)
  refine ⟨_, hrun, ?_, exec_cfg hrun, rfl, ?_, ?_, ?_, rfl⟩
  · rw [expansion_eq hms hi]
    exact sendsBytes_finish op hc
  · rw [finish_ready hi, runMicros_ready]
  · rw [hinbox, runMicros_inbox]
  · rw [hpar, runMicros_par]

end

/-- An operation that does not write `CFG` leaves the whole control part of an operational block (R28, R180). -/
theorem exec_keepsControl {op : Instr} {s : State} (hs : s.operational = true) (hh : isHostOperation op = true)
    (hi : ∀ c, op ≠ .init c) (hv : violatesParameters op = false) (hcfg : cfgAfter op s.cfg = s.cfg) :
    ∃ t, exec op s = .next t ∧ sendsBytes s t (opBytes s.par op) (tailEvents s op) ∧ keepsControl s t ∧
      t.status = .success := by
  obtain ⟨hq, _, _⟩ := (operational_iff s).mp hs
  obtain ⟨t, hrun, hsent, ht, hseq, hready, hinbox, hpar, hst⟩ := exec_of_not_violatesParameters hs hh hi hv
  exact ⟨t, hrun, hsent, ⟨ht.trans hcfg, hseq.trans hq.symm, hready, hinbox, hpar⟩, hst⟩

/-- Settles O20: `clear` has no parameters to violate, its one byte is the clear command and its last wait is T_CLEAR. -/
theorem clearEffect : Obligations.ClearEffect := by
  unfold Obligations.ClearEffect
  intro s hs
  exact exec_keepsControl (op := .clear) hs rfl nofun rfl rfl

/-- Settles O26: present flags are never out of range, and absent ones always violate. -/
theorem setDisplayEffect : Obligations.SetDisplayEffect := by
  unfold Obligations.SetDisplayEffect
  intro s f hs
  exact ⟨exec_of_not_violatesParameters (op := .setDisplay (some f)) hs rfl nofun rfl,
    exec_of_violatesParameters (op := .setDisplay none) hs rfl nofun rfl⟩

end Sys2Proof.Machine
end

section
/-! SUPPORT. What an answer's status says and what a failed check leaves (60_exceptions.md R221, R223, R226, R227), and the
statements about them. -/

namespace Sys2Proof.Machine

/-- Settles O16: a transfer keeps the status, and every status that is delivered is Success or InvalidParameter. -/
theorem busyIsNeverReturned : Obligations.BusyIsNeverReturned := by
  unfold Obligations.BusyIsNeverReturned
  refine ⟨fun _ => rfl, fun i s t h hs => ?_⟩
  obtain ⟨_, ha⟩ := exec_eq_next h
  cases ha with
  | transfer ms _ _ ht => rwa [ht, runMicros_status]
  | status st hst _ ht => rwa [ht, State.deliver_status]
  | init c _ _ ht => simp [ht]
  | host ms _ _ _ _ _ ht => simp [ht, finish]

/-! ### Failure and success of a host operation -/

/-- A host operation that answers failed its check and only delivered InvalidParameter, or passed it and delivered Success
(R221, R226). -/
theorem exec_host_status {op : Instr} {s t : State} (hh : isHostOperation op = true) (h : exec op s = .next t) :
    (violatesParameters op = true ∧ t = s.deliver .invalidParameter) ∨
      (violatesParameters op = false ∧ t.status = .success) := by
  have hnone := expansion_eq_none_iff hh s.par s.cfg.time
  obtain ⟨_, ha⟩ := exec_eq_next h
  cases ha with
  | transfer ms hm _ _ => cases op <;> cases hh <;> cases hm
  | status st _ hst ht =>
    obtain ⟨rfl, _⟩ | ⟨rfl, _⟩ | ⟨_, hn, rfl⟩ := hst
    · cases hh
    · cases hh
    · exact .inl ⟨hnone.mp hn, ht⟩
  | init c hc _ ht => exact .inr ⟨by rw [hc]; rfl, by rw [ht]; rfl⟩
  | host ms _ _ _ _ hm ht => exact .inr ⟨by simpa [hm] using hnone, by rw [ht]; rfl⟩

/-- Settles O27: by `exec_host_status` the status tells which check result the operation had. -/
theorem invalidParameterCauses : Obligations.InvalidParameterCauses := by
  unfold Obligations.InvalidParameterCauses
  intro op s t hh h
  obtain ⟨hv, ht⟩ | ⟨hv, ht⟩ := exec_host_status hh h
  · simp [hv, ht]
  · simp [hv, ht]

/-- An idle block that is READY, or any idle block asked for an `init` without configuration, fails a host operation whose
parameters are out of range or absent by delivering InvalidParameter (R221). The lines need not be outputs. -/
theorem exec_eq_deliver_of_violatesParameters {op : Instr} {s : State} (hh : isHostOperation op = true)
    (hv : violatesParameters op = true) (hq : s.seq = .idle) (hr : s.ready = true ∨ op = .init none) :
    exec op s = .next (s.deliver .invalidParameter) := by
  by_cases hi : ∃ c, op = .init c
  · obtain ⟨c, rfl⟩ := hi
    cases c with
    | none => exact whenIdle_idle hq _
    | some c => cases hv
  · have hi' : ∀ c, op ≠ .init c := fun c e => hi ⟨c, e⟩
    have hready : s.ready = true := hr.resolve_right (hi' none)
    rw [exec_hostOperation hh hi', (expansion_eq_none_iff hh ..).mpr hv, hostOperation_fail hq hready]

/-- Settles O28: delivering a status to an idle block changes nothing else. -/
theorem failureHasNoEffect : Obligations.FailureHasNoEffect := by
  unfold Obligations.FailureHasNoEffect
  intro op s hh hv hq hr
  rw [exec_eq_deliver_of_violatesParameters hh hv hq hr, State.deliver, ← hq]

/-! ### A host operation does not read the status of the one before it -/

section
variable (s : State) (st : Status)

@[simp] theorem State.deliver_deliver (st' : Status) : (s.deliver st).deliver st' = s.deliver st' := rfl
@[simp] theorem State.deliver_storeConfig (c : DriverConfig) :
    (s.deliver st).storeConfig c = (s.storeConfig c).deliver st := rfl
@[simp] theorem State.deliver_setReady : (s.deliver st).setReady = s.setReady.deliver st := rfl
@[simp] theorem whenReady_deliver (k : Result) : whenReady (s.deliver st) k = whenReady s k := rfl
@[simp] theorem whenConfigured_deliver (k : Result) : whenConfigured (s.deliver st) k = whenConfigured s k := rfl
@[simp] theorem invalidParameter_deliver : invalidParameter (s.deliver st) = invalidParameter s := rfl

@[simp] theorem storeAtEnd_deliver (op : Instr) : storeAtEnd op (s.deliver st) = (storeAtEnd op s).deliver st := by
  cases op with
  | setDisplay f => cases f <;> rfl
  | _ => rfl

end

/-- `init` runs the same whatever status was delivered before it. -/
theorem execInit_deliver {s : State} (hq : s.seq = .idle) (st : Status) (config : Option DriverConfig) :
    execInit config (s.deliver st) = execInit config s := by
  cases config with
  | none => simp [execInit, hq]
  | some c =>
    have hrun := runMicros_deliver (s := s.storeConfig c) hq (initMicros s.par c) st
    simp [execInit, hq, hrun]

/-- A host operation runs the same whatever status was delivered before it (R227). -/
theorem exec_host_deliver {op : Instr} {s : State} (hh : isHostOperation op = true) (hq : s.seq = .idle) (st : Status) :
    exec op (s.deliver st) = exec op s := by
  by_cases hi : ∃ c, op = .init c
  · obtain ⟨c, rfl⟩ := hi
    exact execInit_deliver hq st c
  · have hi' : ∀ c, op ≠ .init c := fun c e => hi ⟨c, e⟩
    simp only [exec_hostOperation hh hi', hostOperation, State.deliver_par, State.deliver_cfg]
    cases expansion s.par s.cfg.time op with
    | none => simp [hq]
    | some ms => simp [hq, runMicros_deliver hq ms st]

/-- Settles O29: the failed operation only delivered its status, which `next` does not read. -/
theorem nextOperationIgnoresAFailure : Obligations.NextOperationIgnoresAFailure := by
  unfold Obligations.NextOperationIgnoresAFailure
  intro op next s t hh hv h hnext
  obtain ⟨hq, _⟩ := exec_eq_next h
  obtain ⟨_, rfl⟩ | ⟨hv', _⟩ := exec_host_status hh h
  · exact exec_host_deliver hnext hq _
  · rw [hv] at hv'
    cases hv'

end Sys2Proof.Machine
end

section
/-! SUPPORT. The round trips between words and instructions (30_encoding.md), and the statements about them. -/

namespace Sys2Proof

/-! ### From an instruction to its word and back -/

theorem takeDriverConfig_driverConfigBits {par : Params} {c : DriverConfig} (h : TimingConfig.fits par c.time = true)
    (rest : List Bool) : takeDriverConfig par (driverConfigBits par c ++ rest) = .ok (c, rest) := by
  simp [takeDriverConfig, driverConfigBits, takePinConfig_pinConfigBits, takeTimingConfig_timingConfigBits h,
    takeDisplayConfig_displayConfigBits, bind, Except.bind, pure, Except.pure]

theorem byteBits_byteOfBits (b0 b1 b2 b3 b4 b5 b6 b7 : Bool) :
    byteBits (byteOfBits b0 b1 b2 b3 b4 b5 b6 b7) = [b0, b1, b2, b3, b4, b5, b6, b7] := by
  revert b0 b1 b2 b3 b4 b5 b6 b7; decide

/-- A byte below 16 is given by its four low bits. -/
theorem byteOfBits_of_lt_sixteen {v : Byte} (h : v.toNat < 16) :
    byteOfBits (v.getLsbD 0) (v.getLsbD 1) (v.getLsbD 2) (v.getLsbD 3) false false false false = v := by
  revert v; decide

theorem ofNat_natOfBits_slot (s : BitVec 3) :
    BitVec.ofNat 3 (natOfBits [s.getLsbD 0, s.getLsbD 1, s.getLsbD 2]) = s := by
  revert s; decide

theorem ofNat_natOfBits_addr (a : BitVec 7) :
    BitVec.ofNat 7 (natOfBits [a.getLsbD 0, a.getLsbD 1, a.getLsbD 2, a.getLsbD 3, a.getLsbD 4, a.getLsbD 5,
      a.getLsbD 6]) = a := by
  revert a; decide

/-- A host request is read back from its own bits: selector, then operands (R101, R102). -/
theorem decodeHost_encode {par : Params} {i : Instr} (h : i.wellFormed par = true)
    (hh : Machine.isHostOperation i = true) : decodeHost par (encode par i).bits = .ok i := by
  cases i with
  | init config =>
    have hc := takeOptional_optionalBits (driverConfigBits par) (takeDriverConfig par) config [] fun c hc =>
      takeDriverConfig_driverConfigBits (by subst hc; exact h) []
    rw [List.append_nil] at hc
    simp [encode, decodeHost, hc, bind, Except.bind, pure, Except.pure]
  | clear => rfl
  | home => rfl
  | setCursor row column =>
    obtain ⟨hr, hc⟩ := Bool.and_eq_true_iff.mp h
    have hc' := takeOperand_operandBits hc []
    rw [List.append_nil] at hc'
    simp [encode, decodeHost, takeOperand_operandBits hr, hc', bind, Except.bind, pure, Except.pure]
  | writeChar c =>
    have hc := takeOperand_operandBits (v := c) h []
    rw [List.append_nil] at hc
    simp [encode, decodeHost, hc, bind, Except.bind, pure, Except.pure]
  | writeString s =>
    have hs := takeOptional_optionalBits (stringBits par) (takeString par) s [] fun bs hbs => by
      subst hbs
      simp only [Instr.wellFormed, Bool.and_eq_true, List.all_eq_true, bne_iff_ne] at h
      exact takeString_stringBits h.2 bs h.1 []
    rw [List.append_nil] at hs
    simp [encode, decodeHost, hs, bind, Except.bind, pure, Except.pure]
  | createGlyph slot pattern =>
    have hslot : par.fitsOperand slot = true := by
      cases pattern with
      | none => exact h
      | some p => exact (Bool.and_eq_true_iff.mp h).1
    have hp := takeOptional_optionalBits (patternBits par) (takePattern par) pattern [] fun p hp => by
      subst hp
      exact takePattern_patternBits (Bool.and_eq_true_iff.mp h).2 []
    rw [List.append_nil] at hp
    simp [encode, decodeHost, takeOperand_operandBits hslot, hp, bind, Except.bind, pure, Except.pure]
  | setDisplay flags =>
    have hf := takeOptional_optionalBits displayConfigBits takeDisplayConfig flags [] fun f _ =>
      takeDisplayConfig_displayConfigBits f []
    rw [List.append_nil] at hf
    simp [encode, decodeHost, hf, bind, Except.bind, pure, Except.pure]
  | _ => cases hh

/-- Settles O3: a host request by `decodeHost_encode`; a frame's few bits are those of its operands. -/
theorem decodeOfEncode : Obligations.DecodeOfEncode := by
  unfold Obligations.DecodeOfEncode
  intro par i h
  cases i with
  | writeNibble v =>
    exact congrArg (Except.ok ∘ Instr.writeNibble) (byteOfBits_of_lt_sixteen (of_decide_eq_true h))
  | writeByte r v => exact congrArg (Except.ok ∘ Instr.writeByte r) (byteOfBits_getLsbD v)
  | cmdSetCgram s => exact congrArg (Except.ok ∘ Instr.cmdSetCgram) (ofNat_natOfBits_slot s)
  | cmdSetDdram a => exact congrArg (Except.ok ∘ Instr.cmdSetDdram) (ofNat_natOfBits_addr a)
  | data v => exact congrArg (Except.ok ∘ Instr.data) (byteOfBits_getLsbD v)
  | pulseEnable | cmdClear | cmdHome | cmdFunctionSet _ _ | cmdDisplayControl _ _ _ | resync8Bit | resyncCommit4Bit
  | statusSuccess | statusInvalidParameter | statusBusy => rfl
  | init _ | clear | home | setCursor _ _ | writeChar _ | writeString _ | createGlyph _ _ | setDisplay _ =>
    exact decodeHost_encode h rfl

/-! ### From a frame to its instruction and back -/

theorem nibbleBits_byteOfBits (b0 b1 b2 b3 : Bool) :
    let v := byteOfBits b0 b1 b2 b3 false false false false
    [v.getLsbD 0, v.getLsbD 1, v.getLsbD 2, v.getLsbD 3] = [b0, b1, b2, b3] := by
  revert b0 b1 b2 b3; decide

theorem slotBits_ofNat (b3 b4 b5 : Bool) :
    let s := BitVec.ofNat 3 (natOfBits [b3, b4, b5])
    [s.getLsbD 0, s.getLsbD 1, s.getLsbD 2] = [b3, b4, b5] := by
  revert b3 b4 b5; decide

theorem addrBits_ofNat (b0 b1 b2 b3 b4 b5 b6 : Bool) :
    let a := BitVec.ofNat 7 (natOfBits [b0, b1, b2, b3, b4, b5, b6])
    [a.getLsbD 0, a.getLsbD 1, a.getLsbD 2, a.getLsbD 3, a.getLsbD 4, a.getLsbD 5, a.getLsbD 6] =
      [b0, b1, b2, b3, b4, b5, b6] := by
  revert b0 b1 b2 b3 b4 b5 b6; decide

/-- A command or data frame is the word of the row it is read as (R107). -/
theorem encode_of_decodeCmd9 {par : Params} {b0 b1 b2 b3 b4 b5 b6 b7 r : Bool} {i : Instr}
    (h : decodeCmd9 [b0, b1, b2, b3, b4, b5, b6, b7, r] = .ok i) :
    encode par i = ⟨.cmd9, [b0, b1, b2, b3, b4, b5, b6, b7, r]⟩ := by
  simp only [decodeCmd9] at h
  split at h
  case isTrue hr =>
    cases h
    subst hr
    exact congrArg (fun bs => Request.mk .cmd9 (bs ++ [true])) (byteBits_byteOfBits ..)
  split at h
  case isTrue h7 =>
    cases h
    obtain rfl : r = false := by simpa using ‹¬r = true›
    subst h7
    exact congrArg (fun bs => Request.mk .cmd9 (bs ++ [true, false])) (addrBits_ofNat ..)
  split at h
  case isTrue h6 =>
    split at h
    · cases h
    · cases h
      have := slotBits_ofNat b3 b4 b5
      simp_all [encode]
  case isFalse =>
    repeat' split at h
    all_goals cases h
    all_goals simp_all [encode, bitsOfNat]

theorem encode_of_decodeEwave {par : Params} {b0 b1 b2 : Bool} {i : Instr} (h : decodeEwave [b0, b1, b2] = .ok i) :
    encode par i = ⟨.ewave, [b0, b1, b2]⟩ := by
  cases b0 <;> cases b1 <;> cases b2 <;> cases h
  rfl

theorem encode_of_decodeResync4 {par : Params} {b0 b1 b2 b3 : Bool} {i : Instr}
    (h : decodeResync4 [b0, b1, b2, b3] = .ok i) : encode par i = ⟨.resync4, [b0, b1, b2, b3]⟩ := by
  cases b0 <;> cases b1 <;> cases b2 <;> cases b3 <;> cases h <;> rfl

theorem encode_of_decodeStatus {par : Params} {b0 b1 : Bool} {i : Instr} (h : decodeStatus [b0, b1] = .ok i) :
    encode par i = ⟨.status, [b0, b1]⟩ := by
  cases b0 <;> cases b1 <;> cases h <;> rfl

/-- Settles O4: one format after the other, with the frame's bits named. -/
theorem encodeOfDecodedFrame : Obligations.EncodeOfDecodedFrame := by
  unfold Obligations.EncodeOfDecodedFrame
  rintro par ⟨format, bits⟩ i hf hl h
  cases format with
  | host => exact absurd rfl hf
  | ewave =>
    match bits, hl with
    | [_, _, _], _ => exact encode_of_decodeEwave h
  | frame4 =>
    match bits, hl with
    | [_, _, _, _], _ =>
      cases h
      exact congrArg (Request.mk .frame4) (nibbleBits_byteOfBits ..)
  | frame9 =>
    match bits, hl with
    | [_, _, _, _, _, _, _, _, r], _ =>
      cases h
      exact congrArg (fun bs => Request.mk .frame9 (bs ++ [r])) (byteBits_byteOfBits ..)
  | cmd9 =>
    match bits, hl with
    | [_, _, _, _, _, _, _, _, _], _ => exact encode_of_decodeCmd9 h
  | resync4 =>
    match bits, hl with
    | [_, _, _, _], _ => exact encode_of_decodeResync4 h
  | status =>
    match bits, hl with
    | [_, _], _ => exact encode_of_decodeStatus h

/-! ### What a read from a word answers, or why it fails -/

/-- `x` answers with a value that satisfies `P`, or the word has ended. -/
def Reads {α : Type} (x : Except DecodeError α) (P : α → Prop) : Prop :=
  match x with
  | .ok a => P a
  | .error e => e = .truncated

section
variable {α β : Type} {x : Except DecodeError α} {P : α → Prop}

theorem Reads.of_ok {a : α} (h : Reads x P) (ha : x = .ok a) : P a := by
  subst ha; exact h

theorem Reads.of_error {e : DecodeError} (h : Reads x P) (he : x = .error e) : e = .truncated := by
  subst he; exact h

theorem Reads.intro (hok : ∀ a, x = .ok a → P a) (herr : ∀ e, x = .error e → e = .truncated) : Reads x P := by
  cases x with
  | ok a => exact hok a rfl
  | error e => exact herr e rfl

theorem Reads.bind {f : α → Except DecodeError β} {Q : β → Prop} (hx : Reads x P) (hf : ∀ a, P a → Reads (f a) Q) :
    Reads (x >>= f) Q := by
  cases x with
  | ok a => exact hf a hx
  | error e => exact hx

theorem Reads.mono {Q : α → Prop} (hx : Reads x P) (h : ∀ a, P a → Q a) : Reads x Q := by
  cases x with
  | ok a => exact h a hx
  | error e => exact hx

end

theorem reads_takeBit (w : List Bool) : Reads (takeBit w) fun _ => True := by
  cases w with
  | nil => rfl
  | cons b w => trivial

theorem reads_takeBits (n : Nat) (w : List Bool) : Reads (takeBits n w) fun r => fitsBits n r.1 = true := by
  refine .intro (fun r hr => (takeBits_eq_ok hr).1) fun e he => ?_
  induction n generalizing w e with
  | zero => cases he
  | succ n ih =>
    cases w with
    | nil => cases he; rfl
    | cons b w =>
      simp only [takeBits] at he
      split at he
      · cases he
      · next he' =>
        cases he
        exact ih w _ he'

theorem reads_takeNat (w : List Bool) : Reads (takeNat w) fun _ => True := by
  fun_induction takeNat w with
  | case1 rest => trivial
  | case2 b rest n rest' h ih => trivial
  | case3 b rest e h ih => rw [h] at ih; exact ih
  | case4 w h1 h2 => rfl

theorem reads_takeOperand (par : Params) (w : List Bool) :
    Reads (takeOperand par w) fun r => par.fitsOperand r.1 = true := reads_takeBits par.wOperand w

theorem reads_takeTime (par : Params) (w : List Bool) : Reads (takeTime par w) fun r => par.fitsTime r.1 = true := by
  unfold takeTime Params.fitsTime
  cases par.wTime with
  | none => exact (reads_takeNat w).mono fun _ _ => rfl
  | some width => exact reads_takeBits width w

theorem reads_takePinRef (w : List Bool) : Reads (takePinRef w) fun _ => True :=
  (reads_takeNat w).bind fun _ _ => (reads_takeNat _).bind fun _ _ => trivial

theorem reads_takePinConfig (w : List Bool) : Reads (takePinConfig w) fun _ => True :=
  (reads_takePinRef w).bind fun _ _ => (reads_takePinRef _).bind fun _ _ => (reads_takePinRef _).bind fun _ _ =>
    (reads_takePinRef _).bind fun _ _ => (reads_takePinRef _).bind fun _ _ => (reads_takePinRef _).bind fun _ _ => trivial

theorem reads_takeTimingConfig (par : Params) (w : List Bool) :
    Reads (takeTimingConfig par w) fun r => TimingConfig.fits par r.1 = true :=
  (reads_takeTime par w).bind fun _ h0 => (reads_takeTime par _).bind fun _ h1 => (reads_takeTime par _).bind fun _ h2 =>
    (reads_takeTime par _).bind fun _ h3 => by simp [Reads, pure, Except.pure, TimingConfig.fits, h0, h1, h2, h3]

theorem reads_takeDisplayConfig (w : List Bool) : Reads (takeDisplayConfig w) fun _ => True :=
  (reads_takeBit w).bind fun _ _ => (reads_takeBit _).bind fun _ _ => (reads_takeBit _).bind fun _ _ =>
    (reads_takeBit _).bind fun _ _ => (reads_takeBit _).bind fun _ _ => trivial

theorem reads_takeDriverConfig (par : Params) (w : List Bool) :
    Reads (takeDriverConfig par w) fun r => TimingConfig.fits par r.1.time = true :=
  (reads_takePinConfig w).bind fun _ _ => (reads_takeTimingConfig par _).bind fun _ ht =>
    (reads_takeDisplayConfig _).bind fun _ _ => ht

theorem reads_takePattern (par : Params) (w : List Bool) :
    Reads (takePattern par w) fun r => Pattern.fits par r.1 = true :=
  (reads_takeOperand par w).bind fun _ h0 => (reads_takeOperand par _).bind fun _ h1 =>
    (reads_takeOperand par _).bind fun _ h2 => (reads_takeOperand par _).bind fun _ h3 =>
    (reads_takeOperand par _).bind fun _ h4 => (reads_takeOperand par _).bind fun _ h5 =>
    (reads_takeOperand par _).bind fun _ h6 => (reads_takeOperand par _).bind fun _ h7 => by
      simp [Reads, pure, Except.pure, Pattern.fits, h0, h1, h2, h3, h4, h5, h6, h7]

/-- A string that is read holds no marker, and the marker behind it fits the width of an element (R187, D17). -/
theorem reads_takeStringFuel (par : Params) (fuel : Nat) (w : List Bool) :
    Reads (takeStringFuel par fuel w) fun r => Instr.wellFormed par (.writeString (some r.1)) = true := by
  induction fuel generalizing w with
  | zero => rfl
  | succ fuel ih =>
    have hread := reads_takeOperand par w
    unfold takeStringFuel
    split
    · next e he => exact hread.of_error he
    · next v w' hv =>
      have hfits := hread.of_ok hv
      split
      · next hend => simpa [Reads, Instr.wellFormed, ← hend] using hfits
      · next hend =>
        have hrest := ih w'
        split
        · next s w'' hs =>
          have hs' := hrest.of_ok hs
          simp only [Instr.wellFormed, Bool.and_eq_true] at hs'
          simp [Reads, Instr.wellFormed, hfits, hend, hs'.1, hs'.2]
        · next e he => exact hrest.of_error he

theorem reads_takeString (par : Params) (w : List Bool) :
    Reads (takeString par w) fun r => Instr.wellFormed par (.writeString (some r.1)) = true :=
  reads_takeStringFuel par (w.length + 1) w

theorem reads_takeOptional {α : Type} {content : List Bool → Except DecodeError (α × List Bool)} {P : α → Prop}
    (h : ∀ w, Reads (content w) fun r => P r.1) (w : List Bool) :
    Reads (takeOptional content w) fun r => ∀ y, r.1 = some y → P y := by
  refine (reads_takeBit w).bind fun r _ => ?_
  obtain ⟨p, w⟩ := r
  cases p with
  | false => exact nofun
  | true => exact (h w).bind fun r hr y hy => Option.some.inj hy ▸ hr

/-- A host request is a well-formed host operation, or it ends early: no selector is reserved (R101, R102). -/
theorem reads_decodeHost (par : Params) (w : List Bool) :
    Reads (decodeHost par w) fun i => i.wellFormed par = true ∧ Machine.isHostOperation i = true := by
  unfold decodeHost
  split
  · refine (reads_takeOptional (P := fun c => TimingConfig.fits par c.time = true) (reads_takeDriverConfig par) _).bind
      fun r hr => ⟨?_, rfl⟩
    obtain ⟨config, w⟩ := r
    cases config with
    | none => rfl
    | some c => exact hr c rfl
  · exact ⟨rfl, rfl⟩
  · exact ⟨rfl, rfl⟩
  · refine (reads_takeOperand par _).bind fun r hr => (reads_takeOperand par _).bind fun c hc => ⟨?_, rfl⟩
    exact Bool.and_eq_true_iff.mpr ⟨hr, hc⟩
  · exact (reads_takeOperand par _).bind fun c hc => ⟨hc, rfl⟩
  · refine (reads_takeOptional (P := fun s => Instr.wellFormed par (.writeString (some s)) = true) (reads_takeString par) _).bind
      fun r hr => ⟨?_, rfl⟩
    obtain ⟨text, w⟩ := r
    cases text with
    | none => rfl
    | some s => exact hr s rfl
  · refine (reads_takeOperand par _).bind fun slot hslot =>
      (reads_takeOptional (P := fun p => Pattern.fits par p = true) (reads_takePattern par) _).bind fun r hr => ⟨?_, rfl⟩
    obtain ⟨pattern, w⟩ := r
    cases pattern with
    | none => exact hslot
    | some p => exact Bool.and_eq_true_iff.mpr ⟨hslot, hr p rfl⟩
  · exact (reads_takeOptional (P := fun _ => True) reads_takeDisplayConfig _).bind fun _ _ => ⟨rfl, rfl⟩
  · rfl

theorem byteOfBits_lt_sixteen (b0 b1 b2 b3 : Bool) : (byteOfBits b0 b1 b2 b3 false false false false).toNat < 16 := by
  revert b0 b1 b2 b3; decide

/-- Settles O5: a host request by `reads_decodeHost`; of the frames only the nibble's has a condition, its four bits. -/
theorem decodedIsWellFormed : Obligations.DecodedIsWellFormed := by
  unfold Obligations.DecodedIsWellFormed
  rintro par ⟨format, bits⟩ i h
  cases format with
  | host => exact ((reads_decodeHost par bits).of_ok h).1
  | frame4 =>
    simp only [decode, decodeFrame4] at h
    split at h
    · cases h
      exact decide_eq_true (byteOfBits_lt_sixteen ..)
    · cases h
  | ewave | frame9 | cmd9 | resync4 | status =>
    simp only [decode, decodeEwave, decodeFrame9, decodeCmd9, decodeResync4, decodeStatus] at h
    repeat' split at h
    all_goals cases h
    all_goals rfl

/-- Whether a command frame decodes is told by the six patterns of R107. -/
theorem decodeCmd9_command (v : Byte) :
    if v = 0x01 ∨ v = 0x02 ∨ v &&& 0xF3 = 0x20 ∨ v &&& 0xF8 = 0x08 ∨ v &&& 0xC7 = 0x40 ∨ v.getLsbD 7 = true then
      (decodeCmd9 (byteBits v ++ [false])).isOk = true
    else decodeCmd9 (byteBits v ++ [false]) = .error .neverSentCommand := by
  revert v; decide

/-- Settles O6, by `decodeCmd9_command`: what follows the frame's nine bits is not read. -/
theorem commandFramesDecodeByTheirRows : Obligations.CommandFramesDecodeByTheirRows := by
  unfold Obligations.CommandFramesDecodeByTheirRows
  intro par v rest w
  have hw : decode par w = decodeCmd9 (byteBits v ++ [false]) := rfl
  have hrow := decodeCmd9_command v
  rw [hw]
  split at hrow
  case isTrue hc =>
    rw [if_pos hc]
    cases hd : decodeCmd9 (byteBits v ++ [false]) with
    | ok i => exact ⟨i, rfl⟩
    | error e =>
      rw [hd] at hrow
      cases hrow
  case isFalse hc => rw [if_neg hc, hrow]

end Sys2Proof
end

section
/-! SUPPORT. What every step keeps, packaged once: a property kept by each act of the block is kept by every step; and the
statements about every step that follow from it (00_scope.md R6, 10_state.md R33). -/

namespace Sys2Proof.Machine

/-! ### The acts a step is made of -/

/-- `P` is kept by every act a step is made of: an event, a status, what an operation stores at its end, a configuration whose
durations fit, and the moves of the sequencer and of the inbox. -/
structure KeptByActs (P : State → Prop) : Prop where
  emit : ∀ s m, P s → P (emit s m)
  deliver : ∀ s st, P s → P (State.deliver s st)
  storeAtEnd : ∀ op s, P s → P (storeAtEnd op s)
  storeConfig : ∀ s c, TimingConfig.fits s.par c.time = true → P s → P (State.storeConfig s c)
  setSeq : ∀ s q, P s → P (State.setSeq s q)
  setInbox : ∀ s ws, P s → P (State.setInbox s ws)

namespace KeptByActs

variable {P : State → Prop} (hP : KeptByActs P)
include hP

theorem runMicros (ms : List Micro) {s : State} (hs : P s) : P (runMicros ms s) := by
  induction ms generalizing s with
  | nil => exact hs
  | cons m ms ih => exact ih (hP.emit s m hs)

theorem finish (op : Instr) {s : State} (hs : P s) : P (finish op s) := hP.deliver _ _ (hP.storeAtEnd op s hs)

theorem exec {i : Instr} {s t : State} (hw : i.wellFormed s.par = true) (h : exec i s = .next t) (hs : P s) : P t := by
  obtain ⟨_, ha⟩ := exec_eq_next h
  cases ha with
  | transfer ms _ _ ht => exact ht ▸ hP.runMicros ms hs
  | status st _ _ ht => exact ht ▸ hP.deliver s st hs
  | init c hc _ ht =>
    subst hc
    have hrun := hP.runMicros (initMicros s.par c) (hP.storeConfig s c hw hs)
    exact ht ▸ hP.deliver _ _ (hP.storeAtEnd (.init none) _ hrun)
  | host ms _ _ _ _ _ ht => exact ht ▸ hP.finish i (hP.runMicros ms hs)

theorem tick {s : State} (hs : P s) : P (tick s) := by
  obtain h | h | ⟨op, h⟩ | ⟨op, m, _, ⟨k, h⟩ | h⟩ := tick_cases s
  · rwa [h]
  · rw [h]; exact hP.deliver s _ hs
  · rw [h]; exact hP.finish op hs
  · rw [h]; exact hP.setSeq _ _ (hP.emit s m hs)
  · rw [h]; exact hP.finish op (hP.emit s m hs)

theorem step {s t : State} (h : step s = .next t) (hs : P s) : P t := by
  obtain ⟨op, k, _, rfl⟩ | ⟨w, i, _, hd, h⟩ | ⟨_, _, rfl⟩ | ⟨_, w, ws, i, _, hd, h⟩ := step_eq_next h
  · exact hP.tick hs
  · exact hP.exec (s := s.setSeq .idle) (decodedIsWellFormed _ _ _ hd) h (hP.setSeq s _ hs)
  · exact hs
  · exact hP.exec (s := s.setInbox ws) ((reads_decodeHost _ _).of_ok hd).1 h (hP.setInbox s ws hs)

end KeptByActs

/-! ### The logs grow -/

/-- From `s` to `t` the trace and both logs have only grown, and the parameters are the same (R35, R76, R77). -/
def Extends (s t : State) : Prop :=
  s.trace <+: t.trace ∧ s.nibLog <+: t.nibLog ∧ s.byteLog <+: t.byteLog ∧ t.par = s.par

theorem Extends.refl (s : State) : Extends s s := ⟨List.prefix_rfl, List.prefix_rfl, List.prefix_rfl, rfl⟩

theorem Extends.trans {s t u : State} (h : Extends s t) (h' : Extends t u) : Extends s u := by
  obtain ⟨h1, h2, h3, h4⟩ := h
  obtain ⟨g1, g2, g3, g4⟩ := h'
  exact ⟨h1.trans g1, h2.trans g2, h3.trans g3, g4.trans h4⟩

theorem extends_record (s : State) (n : Note) : Extends s (s.record n) := by
  cases n <;> simp [Extends, State.record]

theorem extends_emit (s : State) (m : Micro) : Extends s (emit s m) := by
  have hpush : Extends s (s.push m.act) := by simp [Extends]
  exact hpush.trans (extends_record _ m.note)

theorem extends_storeAtEnd (op : Instr) (s : State) : Extends s (storeAtEnd op s) := by
  obtain ⟨_, htrace, hnib, hbyte, _, _, hpar, _⟩ := storeAtEnd_eq op s
  simp [Extends, htrace, hnib, hbyte, hpar]

theorem extends_keptByActs (s : State) : KeptByActs (Extends s) where
  emit t m h := h.trans (extends_emit t m)
  deliver t _ h := h.trans (Extends.refl t)
  storeAtEnd op t h := h.trans (extends_storeAtEnd op t)
  storeConfig t _ _ h := h.trans (Extends.refl t)
  setSeq t _ h := h.trans (Extends.refl t)
  setInbox t _ h := h.trans (Extends.refl t)

/-- Settles O42: every act of a step extends the state before the step. -/
theorem stepOnlyAppends : Obligations.StepOnlyAppends := by
  unfold Obligations.StepOnlyAppends
  exact fun s t h => (extends_keptByActs s).step h (Extends.refl s)

/-! ### The timing registers -/

theorem timingFits_keptByActs : KeptByActs fun s => TimingConfig.fits s.par s.cfg.time = true where
  emit s m h := by rwa [emit_par, emit_cfg]
  deliver _ _ h := h
  storeAtEnd op s h := by
    obtain ⟨_, _, _, _, _, _, hpar, _, htime, _⟩ := storeAtEnd_eq op s
    rwa [hpar, htime]
  storeConfig _ _ hc _ := hc
  setSeq _ _ h := h
  setInbox _ _ h := h

/-- Settles O60: the durations of a configuration that is decoded fit, and nothing else writes the registers. -/
theorem stepKeepsTimingInItsWidth : Obligations.StepKeepsTimingInItsWidth := by
  unfold Obligations.StepKeepsTimingInItsWidth
  exact fun s t hs h => timingFits_keptByActs.step h hs

/-! ### The observer's fields stay in their ranges -/

theorem Lcd.sound_allUnknown : Lcd.Sound Lcd.allUnknown :=
  ⟨List.Pairwise.nil, nofun, List.Pairwise.nil, nofun, nofun, fun _ => rfl⟩

theorem Lcd.Sound.forgetCells {l : Lcd} (h : Lcd.Sound l) : Lcd.Sound l.forgetCells :=
  ⟨List.Pairwise.nil, nofun, List.Pairwise.nil, nofun, h.ac_cgram, h.ac_unknown⟩

theorem Lcd.Sound.resync {l : Lcd} (h : Lcd.Sound l) (t : TimingConfig) (rs : LineLevel) : Lcd.Sound (Lcd.resync t rs l) :=
  ⟨h.ddram_wf, h.ddram_onScreen, h.cgram_wf, h.cgram_range, h.ac_cgram, h.ac_unknown⟩

/-- The observer keeps its memories and selects DDRAM at some address. -/
theorem Lcd.Sound.selectDdram {l : Lcd} (h : Lcd.Sound l) (a : BitVec 7) :
    Lcd.Sound { l with mode := .ddram, ac := some a } :=
  ⟨h.ddram_wf, h.ddram_onScreen, h.cgram_wf, h.cgram_range, nofun, nofun⟩

theorem Lcd.Sound.selectCgram {l : Lcd} (h : Lcd.Sound l) (a : BitVec 6) :
    Lcd.Sound { l with mode := .cgram, ac := some (a.setWidth 7) } := by
  refine ⟨h.ddram_wf, h.ddram_onScreen, h.cgram_wf, h.cgram_range, fun _ b hb => ?_, nofun⟩
  have ha : (a.setWidth 7).toNat < 64 := by
    rw [BitVec.toNat_setWidth]
    have := a.isLt
    omega
  exact Option.some.inj hb ▸ ha

theorem Lcd.Sound.command {l : Lcd} (h : Lcd.Sound l) (blank v : Byte) : Lcd.Sound (Lcd.command blank v l) := by
  unfold Lcd.command
  split
  · exact h.selectDdram _
  split
  · exact h.selectCgram _
  split
  · split <;> exact ⟨h.ddram_wf, h.ddram_onScreen, h.cgram_wf, h.cgram_range, h.ac_cgram, h.ac_unknown⟩
  split
  · exact Lcd.sound_allUnknown
  split
  · exact ⟨h.ddram_wf, h.ddram_onScreen, h.cgram_wf, h.cgram_range, h.ac_cgram, h.ac_unknown⟩
  split
  · exact Lcd.sound_allUnknown
  split
  · exact h.selectDdram _
  split
  · exact ⟨clearedDdram_wf blank, clearedDdram_onScreen blank, h.cgram_wf, h.cgram_range, nofun, nofun⟩
  · exact Lcd.sound_allUnknown

theorem and_0x1F_lt (v : Byte) : (v &&& 0x1F).toNat < 32 := by
  rw [BitVec.toNat_and]
  exact Nat.lt_of_le_of_lt Nat.and_le_right (by decide)

theorem nextCgramAddr_lt {a b : BitVec 7} (h : nextCgramAddr a = some b) : b.toNat < 64 := by
  unfold nextCgramAddr at h
  split at h
  · cases h
    rw [BitVec.toNat_add]
    show (a.toNat + 1) % 128 < 64
    omega
  · cases h

theorem Lcd.Sound.dataByte {l : Lcd} (h : Lcd.Sound l) (v : Byte) : Lcd.Sound (Lcd.dataByte v l) := by
  unfold Lcd.dataByte
  split
  · next a hmode _ =>
    split
    · next ha =>
      refine ⟨Memory.write_wf h.ddram_wf _ _, fun c hc => ?_, h.cgram_wf, h.cgram_range,
        fun hm => absurd (hmode.symm.trans hm) nofun, fun hm => absurd (hmode.symm.trans hm) nofun⟩
      obtain rfl | hc := Memory.mem_write hc
      · exact ha
      · exact h.ddram_onScreen c hc
    · exact h.forgetCells
  · next a hmode _ =>
    split
    · next ha =>
      refine ⟨h.ddram_wf, h.ddram_onScreen, Memory.write_wf h.cgram_wf _ _, fun c hc => ?_,
        fun _ b hb => nextCgramAddr_lt hb, fun hm => absurd (hmode.symm.trans hm) nofun⟩
      obtain rfl | hc := Memory.mem_write hc
      · exact ⟨ha, and_0x1F_lt v⟩
      · exact h.cgram_range c hc
    · exact h.forgetCells
  · exact h.forgetCells

theorem Lcd.Sound.byte {l : Lcd} (h : Lcd.Sound l) (blank : Byte) (t : TimingConfig) (e : ByteEntry) :
    Lcd.Sound (Lcd.byte blank t e l) := by
  unfold Lcd.byte
  split
  · split
    · exact h.command blank e.value
    · exact h.dataByte e.value
  · exact Lcd.sound_allUnknown

theorem Lcd.Sound.emit {s : State} (h : Lcd.Sound s.lcd) (m : Micro) : Lcd.Sound (emit s m).lcd := by
  obtain ⟨act, note⟩ := m
  cases note with
  | none | nibble n => exact h
  | resynced n => exact h.resync ..
  | strayNibble n | strayPulse => exact Lcd.sound_allUnknown
  | byte e => exact h.byte ..

theorem lcdSound_keptByActs : KeptByActs fun s => Lcd.Sound s.lcd where
  emit _ m h := Lcd.Sound.emit h m
  deliver _ _ h := h
  storeAtEnd op s h := by
    obtain ⟨_, _, _, _, hlcd, _⟩ := storeAtEnd_eq op s
    rwa [hlcd]
  storeConfig _ _ _ h := h
  setSeq _ _ h := h
  setInbox _ _ h := h

/-- Settles O39: of all acts only an event moves the observer, and each of its reactions keeps it sound. -/
theorem stepKeepsLcdSound : Obligations.StepKeepsLcdSound := by
  unfold Obligations.StepKeepsLcdSound
  exact fun s t hs h => lcdSound_keptByActs.step h hs

/-! ### The sequencer between steps -/

/-- An instruction that answers leaves the sequencer idle (R33). -/
theorem exec_seq {i : Instr} {s t : State} (h : exec i s = .next t) : t.seq = .idle := by
  obtain ⟨hq, ha⟩ := exec_eq_next h
  cases ha with
  | transfer ms _ _ ht => rw [ht, runMicros_seq, hq]
  | status st _ _ ht => rw [ht, State.deliver_seq]
  | init c _ _ ht => rw [ht, State.deliver_seq]
  | host ms _ _ _ _ _ ht => rw [ht, finish, State.deliver_seq]

/-- A step from an idle block does nothing or runs a presented host operation (R101, R234). -/
theorem step_of_idle {s t : State} (hq : s.seq = .idle) (h : step s = .next t) :
    t = s ∨ ∃ ws op, isHostOperation op = true ∧ exec op (s.setInbox ws) = .next t := by
  obtain ⟨op, k, hr, _⟩ | ⟨w, i, hi, _⟩ | ⟨_, _, ht⟩ | ⟨_, w, ws, i, _, hd, h⟩ := step_eq_next h
  · cases hq.symm.trans hr
  · cases hq.symm.trans hi
  · exact .inl ht
  · exact .inr ⟨ws, i, decodeHost_isHostOperation hd, h⟩

theorem tick_seq_ne_internal {s : State} (hs : ∀ w, s.seq ≠ .internal w) (w : Request) : (tick s).seq ≠ .internal w := by
  obtain h | h | ⟨op, h⟩ | ⟨op, m, _, ⟨k, h⟩ | h⟩ := tick_cases s
  · rw [h]; exact hs w
  · rw [h]; exact nofun
  · rw [h]; exact nofun
  · rw [h]; exact nofun
  · rw [h]; exact nofun

/-- Settles O59: a request that decodes is one of the eight operations, and one that does not has ended early; after a step the
sequencer is idle or before an event. -/
theorem theHostReachesOnlyTheEightOperations : Obligations.TheHostReachesOnlyTheEightOperations := by
  unfold Obligations.TheHostReachesOnlyTheEightOperations
  refine ⟨fun s w ws hq hin => ?_, fun s t h w => ?_⟩
  · have hstep : step s = runRequest w (s.setInbox ws) := by simp only [step, hq, hin]
    have hreads := reads_decodeHost s.par w
    cases hd : decodeHost s.par w with
    | ok i => exact .inl ⟨i, decodeHost_isHostOperation hd, hd, by simp only [hstep, runRequest, State.setInbox_par, hd]⟩
    | error e =>
      cases hreads.of_error hd
      exact .inr (by simp only [hstep, runRequest, State.setInbox_par, hd])
  · obtain ⟨op, k, hr, rfl⟩ | ⟨_, i, _, _, h⟩ | ⟨hq, _, rfl⟩ | ⟨_, _, _, i, _, _, h⟩ := step_eq_next h
    · exact tick_seq_ne_internal (fun w => by rw [hr]; exact nofun) w
    · rw [exec_seq h]; exact nofun
    · rw [hq]; exact nofun
    · rw [exec_seq h]; exact nofun

/-- Settles O1: one clause for each position of the sequencer from which a word is fetched. -/
theorem stepRunsThePresentedWord : Obligations.StepRunsThePresentedWord := by
  unfold Obligations.StepRunsThePresentedWord
  intro s
  refine ⟨fun hq hin => by simp only [step, hq, hin], fun w ws hq hin => ?_, fun w hq => ?_⟩
  · have hstep : step s = runRequest w (s.setInbox ws) := by simp only [step, hq, hin]
    have hhost : decode s.par ⟨.host, w⟩ = decodeHost s.par w := rfl
    rw [hstep, hhost]
    exact ⟨fun i hd => by simp only [runRequest, State.setInbox_par, hd],
      fun e hd => by simp only [runRequest, State.setInbox_par, hd]⟩
  · have hstep : step s = runInternal w s := by simp only [step, hq]
    rw [hstep]
    exact ⟨fun i hd => by simp only [runInternal, hd], fun e hd => by simp only [runInternal, hd]⟩

end Sys2Proof.Machine
end

section
/-! SUPPORT. The latches mirror the trace (10_state.md R30, R229), and the statement that every step between operations keeps
them so. -/

namespace Sys2Proof.Machine

theorem replayPin_append (cl : Level) (p : PinRef) (es fs : List Event) :
    replayPin cl p (es ++ fs) = fs.foldl (pinAfter cl p) (replayPin cl p es) := by
  rw [replayPin, List.foldl_append, replayPin]

/-- Every latch is what the trace told its pin (R30). -/
def State.Mirrors (s : State) : Prop :=
  ∀ l, s.line.get l = replayPin s.par.configLevel (PinConfig.ofLine s.cfg.pin l) s.trace

/-- With different pins an action does to every latch what its event does to the latch's pin (R30, R31). -/
theorem onLines_get_eq_pinAfter {c : PinConfig} (hd : PinConfig.distinct c = true) (cl : Level) (a : Action) (ls : Lines)
    (l : Line) : (a.onLines cl ls).get l = pinAfter cl (PinConfig.ofLine c l) (ls.get l) (a.event c) := by
  have hpin : ∀ k, PinConfig.ofLine c k = PinConfig.ofLine c l ↔ l = k :=
    fun k => ⟨fun h => (PinConfig.ofLine_inj hd h).symm, fun h => h ▸ rfl⟩
  cases a with
  | configureOutput k => simp only [Action.onLines, Action.event, pinAfter, Lines.get_set, hpin]
  | setOutput k v =>
    simp only [Action.onLines, Action.event, pinAfter, Lines.get_set, hpin]
    split
    · next h => rw [h]
    · rfl
  | delayMs n => rfl
  | delayUs n => rfl

theorem State.Mirrors.emit {s : State} (h : s.Mirrors) (hd : PinConfig.distinct s.cfg.pin = true) (m : Micro) :
    (emit s m).Mirrors := by
  intro l
  rw [emit_line, emit_par, emit_cfg, emit_trace, replayPin_append, ← h l]
  exact onLines_get_eq_pinAfter hd ..

theorem State.Mirrors.runMicros {s : State} (h : s.Mirrors) (hd : PinConfig.distinct s.cfg.pin = true)
    (ms : List Micro) : (runMicros ms s).Mirrors := by
  induction ms generalizing s with
  | nil => exact h
  | cons m ms ih => exact ih (h.emit hd m) (by rwa [emit_cfg])

/-- After the six `configure_output` every latch mirrors its pin, whatever was on the lines before (R31, R140). -/
theorem mirrors_configureMicros (s : State) : (runMicros configureMicros s).Mirrors := by
  intro l
  rw [run_configureMicros]
  show (Lines.configured s.par.configLevel).get l = replayPin s.par.configLevel (PinConfig.ofLine s.cfg.pin l) (s.trace ++ _)
  rw [replayPin_append]
  cases l <;>
    simp [Lines.configured, Lines.get, configureMicros, Action.plain, Action.event, pinAfter, PinConfig.ofLine]

theorem mirrors_initMicros {c : DriverConfig} (hd : PinConfig.distinct c.pin = true) (par : Params) (s : State) :
    (runMicros (initMicros par c) (s.storeConfig c)).Mirrors := by
  simp only [initMicros, List.append_assoc, runMicros_append configureMicros]
  exact (mirrors_configureMicros _).runMicros (by rwa [runMicros_cfg]) _

/-- What an operation stores at its end touches neither latches, trace nor pins. -/
theorem State.Mirrors.finish {s : State} (h : s.Mirrors) (op : Instr) : (finish op s).Mirrors := by
  obtain ⟨hline, htrace, _, _, _, _, hpar, hpin, _⟩ := finish_eq op s
  intro l
  rw [hline, htrace, hpar, hpin]
  exact h l

/-- A host operation keeps the lines sound (R23, R30, R229). -/
theorem linesSound_of_exec {op : Instr} {s t : State} (hh : isHostOperation op = true) (hs : s.LinesSound)
    (h : exec op s = .next t) : t.LinesSound := by
  obtain ⟨_, hready, hdistinct, hlow, hmirror⟩ := hs
  obtain rfl | ⟨c, rfl, hd, rfl⟩ | ⟨hi, hr, hc, rfl, hex⟩ := exec_host_next hh h
  · exact ⟨rfl, hready, hdistinct, hlow, hmirror⟩
  · obtain ⟨u, hu, _, hline, hcfg, _⟩ := run_initMicros s c
    have hout := run_initMicros_allOutput s.par c (s.storeConfig c)
    have hmirrors := mirrors_initMicros hd s.par s
    rw [hu] at hout hmirrors ⊢
    refine ⟨rfl, hout.symm, fun _ => ?_, fun _ => ?_, hmirrors⟩
    · rwa [State.deliver_cfg, State.setReady_cfg, hcfg]
    · rw [State.deliver_line, State.setReady_line, hline, linesAfter]
  · obtain ⟨_, _, ⟨_, hlast, _⟩⟩ := run_opBytes op s hc
    obtain ⟨hline, _, _, _, _, _, _, hpin, _⟩ := finish_eq op
      (runMicros (bytesMicros s.cfg.time (opBytes s.par op) ++ opTail s.par s.cfg.time op) s)
    refine ⟨exec_seq h, ?_, fun _ => ?_, fun _ => ?_,
      (State.Mirrors.runMicros (s := s) hmirror (hdistinct hr) _).finish op⟩
    · rw [finish_ready hi, runMicros_ready, hr, hline, runMicros_allOutput _ _ hc]
    · rw [hpin, runMicros_cfg]
      exact hdistinct hr
    · rw [hlast]
      split
      · rfl
      · exact hlow hr

/-- Settles O38: a block between operations is idle, so a step runs a host operation or nothing. -/
theorem stepKeepsLinesSound : Obligations.StepKeepsLinesSound := by
  unfold Obligations.StepKeepsLinesSound
  intro s t hs h
  obtain rfl | ⟨ws, op, hh, h⟩ := step_of_idle hs.idle h
  · exact hs
  · exact linesSound_of_exec (s := s.setInbox ws) hh ⟨hs.idle, hs.ready_iff, hs.distinct, hs.enableLow, hs.mirror⟩ h

/-! ### Pins that the configuration does not name -/

/-- The events of an instruction are those of its expansion under the configuration it leaves. -/
theorem exec_trace {i : Instr} {s t : State} (h : exec i s = .next t) :
    ∃ ms : List Micro, t.trace = s.trace ++ ms.map fun m => m.act.event t.cfg.pin := by
  obtain ⟨_, ha⟩ := exec_eq_next h
  cases ha with
  | transfer ms _ _ ht => exact ⟨ms, by rw [ht, runMicros_cfg, runMicros_trace]⟩
  | status st _ _ ht => exact ⟨[], by rw [ht]; exact (List.append_nil _).symm⟩
  | init c _ _ ht => exact ⟨initMicros s.par c, by simp [ht, runMicros_trace]⟩
  | host ms _ _ _ _ _ ht =>
    obtain ⟨_, htrace, _, _, _, _, _, hpin, _⟩ := finish_eq i (runMicros ms s)
    exact ⟨ms, by rw [ht, htrace, hpin, runMicros_cfg, runMicros_trace]⟩

/-- An action's event reaches no pin that the configuration does not name. -/
theorem pinAfter_event_of_not_mem {c : PinConfig} {p : PinRef} (hp : p ∉ PinConfig.toList c) (cl : Level) (x : Latch)
    (a : Action) : pinAfter cl p x (a.event c) = x := by
  have hne : ∀ l, PinConfig.ofLine c l ≠ p := fun l h => hp (h ▸ PinConfig.ofLine_mem c l)
  cases a with
  | configureOutput l => exact if_neg (hne l)
  | setOutput l v => exact if_neg (hne l)
  | delayMs n => rfl
  | delayUs n => rfl

theorem foldl_pinAfter_of_not_mem {c : PinConfig} {p : PinRef} (hp : p ∉ PinConfig.toList c) (cl : Level) (ms : List Micro)
    (x : Latch) : (ms.map fun m => m.act.event c).foldl (pinAfter cl p) x = x := by
  induction ms generalizing x with
  | nil => rfl
  | cons m ms ih => rw [List.map_cons, List.foldl_cons, pinAfter_event_of_not_mem hp, ih]

/-- Settles O44: none of the instruction's events reaches the pin. -/
theorem unnamedPinsKeepTheirLevel : Obligations.UnnamedPinsKeepTheirLevel := by
  unfold Obligations.UnnamedPinsKeepTheirLevel
  intro i s t cl p h hp
  obtain ⟨ms, hms⟩ := exec_trace h
  rw [hms, replayPin_append, foldl_pinAfter_of_not_mem hp]

end Sys2Proof.Machine
end

section
/-! SUPPORT. The bytes that are sent with the standard base values (30_encoding.md R107 to R116, D13), and the statements about
what reaches the bus and about the addressing mode (43_command_operations.md R188). -/

namespace Sys2Proof.Machine

/-! ### The command bytes with the standard base values -/

theorem standardCommands_iff (par : Params) :
    Params.standardCommands par = true ↔ par.cmdClear = 0x01#8 ∧ par.cmdHome = 0x02#8 ∧
      par.cmdFunctionSet = 0x20#8 ∧ par.cmdDisplayControl = 0x08#8 ∧ par.cmdSetCgram = 0x40#8 ∧
      par.cmdSetDdram = 0x80#8 := by
  simp [Params.standardCommands, and_assoc]

section
variable {par : Params} (h : Params.standardCommands par = true)
include h

theorem cmdClear_standard : par.cmdClear = 0x01#8 := by obtain ⟨h, _⟩ := (standardCommands_iff par).mp h; exact h

theorem cmdHome_standard : par.cmdHome = 0x02#8 := by obtain ⟨_, h, _⟩ := (standardCommands_iff par).mp h; exact h

theorem functionSet_standard (n f : Bool) : functionSet par n f = 0x20#8 ||| flagBit false 4 ||| flagBit n 3 ||| flagBit f 2 := by
  obtain ⟨_, _, h, _⟩ := (standardCommands_iff par).mp h
  rw [functionSet, h]

theorem displayControl_standard (d c b : Bool) :
    displayControl par d c b = 0x08#8 ||| flagBit d 2 ||| flagBit c 1 ||| flagBit b 0 := by
  obtain ⟨_, _, _, h, _⟩ := (standardCommands_iff par).mp h
  rw [displayControl, h]

theorem setCgram_standard (slot : Nat) : setCgram par slot = 0x40#8 ||| BitVec.ofNat 8 (slot <<< 3) := by
  obtain ⟨_, _, _, _, h, _⟩ := (standardCommands_iff par).mp h
  rw [setCgram, h]

theorem setDdram_standard (a : BitVec 7) : setDdram par a = 0x80#8 ||| a.setWidth 8 := by
  obtain ⟨_, _, _, _, _, h⟩ := (standardCommands_iff par).mp h
  rw [setDdram, h]

end

/-- Settles O14: with the base values written in, each clause is about a handful of field values. -/
theorem commandFieldsDoNotOverlap : Obligations.CommandFieldsDoNotOverlap := by
  unfold Obligations.CommandFieldsDoNotOverlap
  intro par h
  refine ⟨fun n f => ?_, fun d c b => ?_, fun slot hslot => ?_, fun a => ?_⟩
  · rw [functionSet_standard h]
    revert n f; decide
  · rw [displayControl_standard h]
    revert d c b; decide
  · rw [setCgram_standard h]
    revert slot; decide
  · rw [setDdram_standard h]
    revert a; decide

/-! ### Addresses on the screen -/

theorem ddramAddr_of_inRange {row column : Nat} (h : row < 2 ∧ column < 16) :
    ddramAddr row column = some (rowBase row + BitVec.ofNat 7 column) := by
  have : ¬ (row ≥ Config.nRows ∨ column ≥ Config.nCols) := by simp only [Config.nRows, Config.nCols]; omega
  exact if_neg this

theorem ddramAddr_of_not_inRange {row column : Nat} (h : ¬ (row < 2 ∧ column < 16)) : ddramAddr row column = none := by
  have : row ≥ Config.nRows ∨ column ≥ Config.nCols := by simp only [Config.nRows, Config.nCols]; omega
  exact if_pos this

theorem rowBase_add : ∀ row < 2, ∀ column < 16,
    rowBase row + BitVec.ofNat 7 column = BitVec.ofNat 7 (0x40 * row + column) := by
  decide

theorem onScreen_rowBase_add : ∀ row < 2, ∀ column < 16,
    onScreen (rowBase row + BitVec.ofNat 7 column).toNat = true := by
  decide

theorem onScreen_of_ddramAddr {row column : Nat} {a : BitVec 7} (h : ddramAddr row column = some a) :
    onScreen a.toNat = true := by
  by_cases hr : row < 2 ∧ column < 16
  · rw [ddramAddr_of_inRange hr] at h
    obtain ⟨hrow, hcol⟩ := hr
    exact Option.some.inj h ▸ onScreen_rowBase_add row hrow column hcol
  · rw [ddramAddr_of_not_inRange hr] at h
    cases h

/-- Settles O58: the 32 addresses in range one by one, none outside. -/
theorem rowAndColumnTranslation : Obligations.RowAndColumnTranslation := by
  unfold Obligations.RowAndColumnTranslation
  intro row column
  split
  · next hr => rw [ddramAddr_of_inRange hr, rowBase_add row hr.1 column hr.2]
  · next hr => exact ddramAddr_of_not_inRange hr

/-! ### Only the listed commands are sent -/

/-- A byte of the block's own: character data, or a command of the list (R116). -/
def ByteEntry.listed (e : ByteEntry) : Prop := e.kind = .cmd → isSentCommand e.value = true

theorem isSentCommand_functionSet : ∀ n f : Bool,
    isSentCommand (0x20#8 ||| flagBit false 4 ||| flagBit n 3 ||| flagBit f 2) = true := by decide

theorem isSentCommand_displayControl : ∀ d c b : Bool,
    isSentCommand (0x08#8 ||| flagBit d 2 ||| flagBit c 1 ||| flagBit b 0) = true := by decide

theorem isSentCommand_setCgram : ∀ slot < 8, isSentCommand (0x40#8 ||| BitVec.ofNat 8 (slot <<< 3)) = true := by decide

theorem isSentCommand_setDdram : ∀ a : BitVec 7, onScreen a.toNat = true →
    isSentCommand (0x80#8 ||| a.setWidth 8) = true := by decide

theorem initBytes_listed {par : Params} (h : Params.standardCommands par = true) (c : DriverConfig) :
    ∀ e ∈ initBytes par c, ByteEntry.listed e := by
  simp only [initBytes, List.forall_mem_cons, List.not_mem_nil, false_imp_iff, implies_true, and_true, ByteEntry.listed,
    true_imp_iff, functionSet_standard h, displayControl_standard h, cmdClear_standard h]
  exact ⟨isSentCommand_functionSet .., isSentCommand_displayControl .., rfl⟩

/-- The bytes of an operation whose parameters are in range (R68, R116). -/
theorem opBytes_listed {par : Params} (h : Params.standardCommands par = true) {op : Instr}
    (hv : violatesParameters op = false) : ∀ e ∈ opBytes par op, ByteEntry.listed e := by
  have one : ∀ {v : Byte}, isSentCommand v = true → ∀ e ∈ [(⟨.cmd, v⟩ : ByteEntry)], ByteEntry.listed e := by
    intro v hv e he _
    rw [List.mem_singleton.mp he]
    exact hv
  cases op with
  | clear => exact one (by rw [cmdClear_standard h]; rfl)
  | home => exact one (by rw [cmdHome_standard h]; rfl)
  | setCursor row column =>
    rw [opBytes]
    cases ha : ddramAddr row column with
    | none => exact nofun
    | some a => exact one (by rw [setDdram_standard h]; exact isSentCommand_setDdram a (onScreen_of_ddramAddr ha))
  | writeChar c => simp [opBytes, ByteEntry.listed]
  | writeString s => cases s <;> simp [opBytes, ByteEntry.listed]
  | createGlyph slot p =>
    cases p with
    | none => exact nofun
    | some p =>
      have hslot : slot < 8 := by simpa [violatesParameters, Nat.lt_succ_iff] using hv
      have hset := isSentCommand_setCgram slot hslot
      have hrestore := isSentCommand_setDdram 0#7 rfl
      rw [← setCgram_standard h] at hset
      rw [← setDdram_standard h] at hrestore
      simp [opBytes, glyphBytes, ByteEntry.listed, hset, hrestore]
  | setDisplay f =>
    cases f with
    | none => exact nofun
    | some f => exact one (by rw [displayControl_standard h]; exact isSentCommand_displayControl ..)
  | _ => exact nofun

/-- What a host operation that answers adds to the byte log: nothing if it fails, else the bytes of `init` or its own (R77). -/
theorem exec_host_byteLog {op : Instr} {s t : State} (hh : isHostOperation op = true) (h : exec op s = .next t) :
    ∃ bytes, t.byteLog = s.byteLog ++ bytes ∧
      (bytes = [] ∨ (∃ c, bytes = initBytes s.par c) ∨ violatesParameters op = false ∧ bytes = opBytes s.par op) := by
  obtain rfl | ⟨c, _, _, rfl⟩ | ⟨_, _, hc, rfl, hex⟩ := exec_host_next hh h
  · exact ⟨[], (List.append_nil _).symm, .inl rfl⟩
  · obtain ⟨u, hu, ⟨_, _, hbytes⟩, _⟩ := run_initMicros s c
    rw [hu]
    exact ⟨_, hbytes, .inr (.inl ⟨c, rfl⟩)⟩
  · obtain ⟨_, _, ⟨_, _, hbytes⟩, _⟩ := run_opBytes op s hc
    have hv := expansion_eq_none_iff hh s.par s.cfg.time
    rw [hex] at hv
    exact ⟨_, hbytes, .inr (.inr ⟨by simpa using hv, rfl⟩)⟩

/-- Settles O41: every byte that a host operation adds to the log is listed. -/
theorem onlyListedCommandsReachTheBus : Obligations.OnlyListedCommandsReachTheBus := by
  unfold Obligations.OnlyListedCommandsReachTheBus
  intro s t hstd hq hlog h
  obtain rfl | ⟨ws, op, hh, h⟩ := step_of_idle hq h
  · exact hlog
  · obtain ⟨bytes, hbytes, hcases⟩ := exec_host_byteLog hh h
    have hlisted : ∀ e ∈ bytes, ByteEntry.listed e := by
      obtain rfl | ⟨c, rfl⟩ | ⟨hv, rfl⟩ := hcases
      · exact nofun
      · exact initBytes_listed hstd c
      · exact opBytes_listed hstd hv
    intro e he
    rw [hbytes] at he
    exact (List.mem_append.mp he).elim (hlog e) (hlisted e)

/-! ### The addressing mode -/

/-- A byte that cannot select CGRAM: data, or a command whose bits 7 and 6 are not those of set CGRAM address (R84). -/
def ByteEntry.keepsOutOfCgram (e : ByteEntry) : Prop :=
  e.kind = .cmd → e.value.getLsbD 7 = true ∨ e.value.getLsbD 6 = false

theorem Lcd.dataByte_mode (v : Byte) (l : Lcd) : (Lcd.dataByte v l).mode = l.mode := by
  unfold Lcd.dataByte
  repeat' split
  all_goals rfl

theorem Lcd.command_mode_ne_cgram {v : Byte} (hv : v.getLsbD 7 = true ∨ v.getLsbD 6 = false) {l : Lcd}
    (hl : l.mode ≠ .cgram) (blank : Byte) : (Lcd.command blank v l).mode ≠ .cgram := by
  unfold Lcd.command
  split
  · exact nofun
  split
  · next h7 h6 => exact (hv.elim h7 fun h => Bool.noConfusion (h6.symm.trans h)).elim
  split
  · split <;> exact hl
  split
  · exact nofun
  split
  · exact hl
  repeat' split
  all_goals exact nofun

theorem Lcd.byte_mode_ne_cgram {e : ByteEntry} (he : ByteEntry.keepsOutOfCgram e) {l : Lcd} (hl : l.mode ≠ .cgram)
    (blank : Byte) (t : TimingConfig) : (Lcd.byte blank t e l).mode ≠ .cgram := by
  unfold Lcd.byte
  split
  · split
    · next hk => exact Lcd.command_mode_ne_cgram (he hk) hl blank
    · rwa [Lcd.dataByte_mode]
  · exact nofun

theorem foldl_byte_mode_ne_cgram {es : List ByteEntry} (hes : ∀ e ∈ es, ByteEntry.keepsOutOfCgram e) {l : Lcd}
    (hl : l.mode ≠ .cgram) (blank : Byte) (t : TimingConfig) :
    (es.foldl (fun l e => Lcd.byte blank t e l) l).mode ≠ .cgram := by
  induction es generalizing l with
  | nil => exact hl
  | cons e es ih =>
    obtain ⟨he, hes⟩ := List.forall_mem_cons.mp hes
    exact ih hes (Lcd.byte_mode_ne_cgram he hl blank t)

theorem Lcd.command_of_getLsbD_seven {v : Byte} (hv : v.getLsbD 7 = true) (blank : Byte) (l : Lcd) :
    Lcd.command blank v l = { l with mode := .ddram, ac := some (v.extractLsb' 0 7) } := if_pos hv

/-- A set-DDRAM-address byte leaves CGRAM mode, whatever came before (R84, R188). -/
theorem Lcd.byte_setDdram_mode {v : Byte} (hv : v.getLsbD 7 = true) (blank : Byte) (t : TimingConfig) (l : Lcd) :
    (Lcd.byte blank t ⟨.cmd, v⟩ l).mode ≠ .cgram := by
  unfold Lcd.byte
  split
  · simp only [Lcd.command_of_getLsbD_seven hv]
    exact nofun
  · exact nofun

theorem setDdram_getLsbD_seven : ∀ a : BitVec 7, (0x80#8 ||| a.setWidth 8).getLsbD 7 = true := by decide

theorem displayControl_getLsbD_six : ∀ d c b : Bool,
    (0x08#8 ||| flagBit d 2 ||| flagBit c 1 ||| flagBit b 0).getLsbD 6 = false := by decide

theorem functionSet_getLsbD_six : ∀ n f : Bool,
    (0x20#8 ||| flagBit false 4 ||| flagBit n 3 ||| flagBit f 2).getLsbD 6 = false := by decide

theorem initBytes_keepOutOfCgram {par : Params} (h : Params.standardCommands par = true) (c : DriverConfig) :
    ∀ e ∈ initBytes par c, ByteEntry.keepsOutOfCgram e := by
  simp only [initBytes, List.forall_mem_cons, List.not_mem_nil, false_imp_iff, implies_true, and_true,
    ByteEntry.keepsOutOfCgram, true_imp_iff, functionSet_standard h, displayControl_standard h, cmdClear_standard h]
  exact ⟨.inr (functionSet_getLsbD_six ..), .inr (displayControl_getLsbD_six ..), .inr rfl⟩

/-- Only `create_glyph` ever selects CGRAM. -/
theorem opBytes_keepOutOfCgram {par : Params} (h : Params.standardCommands par = true) {op : Instr}
    (hg : ∀ slot p, op ≠ .createGlyph slot p) : ∀ e ∈ opBytes par op, ByteEntry.keepsOutOfCgram e := by
  cases op with
  | clear => simp [opBytes, ByteEntry.keepsOutOfCgram, cmdClear_standard h]
  | home => simp [opBytes, ByteEntry.keepsOutOfCgram, cmdHome_standard h]
  | setCursor row column =>
    rw [opBytes]
    cases ddramAddr row column with
    | none => exact nofun
    | some a =>
      intro e he _
      rw [Option.map_some, Option.toList_some, List.mem_singleton, setDdram_standard h] at he
      exact .inl (he ▸ setDdram_getLsbD_seven a)
  | writeChar c => simp [opBytes, ByteEntry.keepsOutOfCgram]
  | writeString s => cases s <;> simp [opBytes, ByteEntry.keepsOutOfCgram]
  | createGlyph slot p => exact absurd rfl (hg slot p)
  | setDisplay f =>
    cases f with
    | none => exact nofun
    | some f =>
      intro e he _
      rw [opBytes, List.mem_singleton, displayControl_standard h] at he
      exact .inr (he ▸ displayControl_getLsbD_six ..)
  | _ => exact nofun

/-- The bytes of every operation leave the attached controller out of CGRAM: `create_glyph` ends with the restore to DDRAM, and
no other operation selects CGRAM (R188). -/
theorem observeBytes_opBytes_mode {s : State} (h : Params.standardCommands s.par = true) (hl : s.lcd.mode ≠ .cgram)
    (op : Instr) : (observeBytes s (opBytes s.par op)).mode ≠ .cgram := by
  by_cases hg : ∃ slot p, op = .createGlyph slot p
  · obtain ⟨slot, p, rfl⟩ := hg
    cases p with
    | none => exact hl
    | some p =>
      have h7 := setDdram_getLsbD_seven 0#7
      rw [← setDdram_standard h] at h7
      exact Lcd.byte_setDdram_mode h7 _ _ _
  · exact foldl_byte_mode_ne_cgram (opBytes_keepOutOfCgram h fun slot p e => hg ⟨slot, p, e⟩) hl _ _

theorem exec_host_mode {op : Instr} {s t : State} (hh : isHostOperation op = true) (hstd : Params.standardCommands s.par = true)
    (hl : s.lcd.mode ≠ .cgram) (h : exec op s = .next t) : t.lcd.mode ≠ .cgram := by
  obtain rfl | ⟨c, _, _, rfl⟩ | ⟨_, _, hc, rfl, _⟩ := exec_host_next hh h
  · exact hl
  · obtain ⟨u, hu, _, _, _, _, _, _, _, hlcd⟩ := run_initMicros s c
    rw [hu, State.deliver_lcd, State.setReady_lcd, hlcd]
    have hresync : (Lcd.resync c.time (Level.toLine s.par.configLevel) s.lcd).mode ≠ .cgram := hl
    exact foldl_byte_mode_ne_cgram (initBytes_keepOutOfCgram hstd c) hresync _ _
  · obtain ⟨_, _, _, _, hlcd⟩ := run_opBytes op s hc
    rw [hlcd]
    exact observeBytes_opBytes_mode hstd hl op

/-- Settles O40: the step runs a host operation, which ends out of CGRAM mode, leaves the sequencer idle, and changes no
parameter. -/
theorem noOperationEndsInCgramMode : Obligations.NoOperationEndsInCgramMode := by
  unfold Obligations.NoOperationEndsInCgramMode
  intro s t hstd hq hl h
  obtain ⟨_, _, _, hpar⟩ := stepOnlyAppends s t h
  refine ⟨hpar ▸ hstd, ?_⟩
  obtain rfl | ⟨ws, op, hh, h⟩ := step_of_idle hq h
  · exact ⟨hq, hl⟩
  · exact ⟨exec_seq h, exec_host_mode (s := s.setInbox ws) hh hstd hl h⟩

end Sys2Proof.Machine
end

section
/-! SUPPORT. The statements about reset (10_state.md R37) and about written-out words (30_encoding.md R101 to R115). -/

namespace Sys2Proof.Machine

/-- Settles O7: every clause reads one field of the reset state. -/
theorem resetValues : Obligations.ResetValues := by
  unfold Obligations.ResetValues
  refine ⟨fun l => ?_, rfl, rfl, fun l => ?_, rfl, rfl, rfl, rfl, rfl, rfl, rfl, rfl, fun _ => rfl, fun _ => rfl, rfl, rfl, rfl,
    rfl, rfl⟩
  · cases l <;> rfl
  · cases l <;> rfl

theorem linesSound_reset : State.reset.LinesSound :=
  ⟨rfl, rfl, nofun, nofun, fun l => by cases l <;> rfl⟩

/-- Settles O8: a fresh block is not READY, and its observer knows nothing. -/
theorem resetIsSound : Obligations.ResetIsSound := by
  unfold Obligations.ResetIsSound
  exact ⟨linesSound_reset, Lcd.sound_allUnknown, rfl, rfl, rfl, nofun⟩

/-- Settles O2: each clause is one run of the decoder on one word. -/
theorem writtenOutWordsDecode : Obligations.WrittenOutWordsDecode := by
  unfold Obligations.WrittenOutWordsDecode
  decide

end Sys2Proof.Machine
end

section
/-! SUPPORT. The transfers run by themselves (42_transfer_primitives.md R160 to R162, 30_encoding.md R107 to R115), the status
results, and the statements about them. -/

namespace Sys2Proof.Machine

/-! ### When an instruction is refused -/

/-- Settles O31: an instruction that answers started from an idle sequencer. -/
theorem oneOperationAtATime : Obligations.OneOperationAtATime := by
  unfold Obligations.OneOperationAtATime
  exact fun i s t hq h => hq (exec_eq_next h).1

/-- What is neither a host operation nor a status result is a transfer (R2). -/
theorem transferMicros_isSome {i : Instr} (hh : isHostOperation i = false) (h1 : i ≠ .statusSuccess)
    (h2 : i ≠ .statusInvalidParameter) (h3 : i ≠ .statusBusy) (par : Params) (t : TimingConfig) :
    ∃ ms, transferMicros par t i = some ms := by
  cases i with
  | init _ | clear | home | setCursor _ _ | writeChar _ | writeString _ | createGlyph _ _ | setDisplay _ => cases hh
  | statusSuccess => exact absurd rfl h1
  | statusInvalidParameter => exact absurd rfl h2
  | statusBusy => exact absurd rfl h3
  | _ => exact ⟨_, rfl⟩

/-- Settles O32: every transfer checks the lines before its first event. -/
theorem transfersNeedConfiguredLines : Obligations.TransfersNeedConfiguredLines := by
  unfold Obligations.TransfersNeedConfiguredLines
  intro i s hh h1 h2 h3 hq hc
  obtain ⟨ms, hms⟩ := transferMicros_isSome hh h1 h2 h3 s.par s.cfg.time
  rw [exec_transfer hms, transfer, whenIdle_idle hq, whenConfigured, hc]
  rfl

/-- Settles O15: a delivered status changes nothing else of an idle block. -/
theorem statusIsDelivered : Obligations.StatusIsDelivered := by
  unfold Obligations.StatusIsDelivered
  intro s hq
  have hdeliver : ∀ st, s.deliver st = { s with status := st } := fun st => by rw [State.deliver, ← hq]
  rw [← hdeliver, ← hdeliver]
  exact ⟨whenIdle_idle hq _, whenIdle_idle hq _⟩

/-- Settles O19: the check for equal pins stands before the first event. -/
theorem initRefusesSharedPins : Obligations.InitRefusesSharedPins := by
  unfold Obligations.InitRefusesSharedPins
  intro s c hq hd
  have hdist : ¬ PinConfig.distinct c.pin = true := fun h => hd (of_decide_eq_true h)
  show whenIdle s (if PinConfig.distinct c.pin = true then _ else .refused .sharedPins) = _
  rw [whenIdle_idle hq, if_neg hdist]

/-! ### Pulses and nibbles by themselves -/

/-- A transfer from an idle block with all lines outputs answers with its events run; the control part and the status stay. -/
theorem exec_transfer_run {i : Instr} {s : State} {ms : List Micro} (hm : transferMicros s.par s.cfg.time i = some ms)
    (hi : s.seq = .idle) (hc : s.line.allOutput = true) :
    exec i s = .next (runMicros ms s) ∧ keepsControl s (runMicros ms s) ∧ (runMicros ms s).status = s.status := by
  refine ⟨by rw [exec_transfer hm, transfer_run hi hc], ⟨?_, ?_, ?_, ?_, ?_⟩, ?_⟩
  · exact runMicros_cfg ..
  · exact runMicros_seq ..
  · exact runMicros_ready ..
  · exact runMicros_inbox ..
  · exact runMicros_par ..
  · exact runMicros_status ..

theorem mode_output {ls : Lines} (h : ls.allOutput = true) (l : Line) : (ls.get l).mode = .output :=
  (Lines.allOutput_iff ls).mp h l

/-- Settles O9: the five events of the waveform; E is an output before and after. -/
theorem pulseEnableWaveform : Obligations.PulseEnableWaveform := by
  unfold Obligations.PulseEnableWaveform
  intro s hi hc
  obtain ⟨hrun, hkeep, hst⟩ := exec_transfer_run (i := .pulseEnable) rfl hi hc
  have hpulse := run_pulseMicros s.cfg.time .strayPulse s
  rw [pulseMicros_events] at hpulse
  refine ⟨_, hrun, ⟨?_, ?_, ?_⟩, ?_, hkeep, hst⟩
  · rw [hpulse]; rfl
  · rw [hpulse]; exact (List.append_nil _).symm
  · rw [hpulse]; exact (List.append_nil _).symm
  · rw [hpulse]
    show { s.line with e := ⟨s.line.e.mode, .low⟩ } = _
    rw [show s.line.e.mode = .output from mode_output hc .e]
    rfl

/-- The latches after a nibble is driven and pulsed on output lines (R66, R161). -/
def Lines.afterNibble (ls : Lines) (n : Nibble) : Lines :=
  ⟨ls.rs, ⟨.output, .low⟩, ⟨.output, Level.toLine (bitLevel n 0)⟩, ⟨.output, Level.toLine (bitLevel n 1)⟩,
    ⟨.output, Level.toLine (bitLevel n 2)⟩, ⟨.output, Level.toLine (bitLevel n 3)⟩⟩

theorem driveNibble_enableLow_eq {ls : Lines} (h : ls.allOutput = true) (n : Nibble) :
    (ls.driveNibble n).enableLow = ls.afterNibble n := by
  have he := mode_output h .e; have h0 := mode_output h .d0; have h1 := mode_output h .d1
  have h2 := mode_output h .d2; have h3 := mode_output h .d3
  simp only [Lines.get] at he h0 h1 h2 h3
  simp only [Lines.driveNibble, Lines.enableLow, Lines.afterNibble, levelOfBit_eq_bitLevel, he, h0, h1, h2, h3]

/-- A nibble as an instruction of its own (R105, R161). -/
theorem exec_strayNibble {i : Instr} {s : State} {n : Nibble}
    (hm : transferMicros s.par s.cfg.time i = some (nibbleMicros s.cfg.time n (.strayNibble n))) (hi : s.seq = .idle)
    (hc : s.line.allOutput = true) :
    ∃ t, exec i s = .next t ∧ sends s t (nibbleEvents s.cfg n) [⟨s.line.rs.level, n⟩] [] ∧
      t.line = s.line.afterNibble n ∧ keepsControl s t ∧ t.status = s.status := by
  obtain ⟨hrun, hkeep, hst⟩ := exec_transfer_run hm hi hc
  have hnib := run_nibbleMicros s.cfg.time n (.strayNibble n) s
  rw [nibbleMicros_events, driveNibble_enableLow_eq hc] at hnib
  refine ⟨_, hrun, ⟨?_, ?_, ?_⟩, ?_, hkeep, hst⟩
  · rw [hnib]; rfl
  · rw [hnib]; rfl
  · rw [hnib]; exact (List.append_nil _).symm
  · rw [hnib]; rfl

theorem bitLevel_lowHalf {v : Byte} {k : Nat} (hk : k < 4) :
    bitLevel (lowHalf v) k = if v.getLsbD k then .high else .low := by
  simp [bitLevel, lowHalf, hk]

theorem toLine_bitLevel_lowHalf {v : Byte} {k : Nat} (hk : k < 4) :
    Level.toLine (bitLevel (lowHalf v) k) = if v.getLsbD k then .high else .low := by
  rw [bitLevel_lowHalf hk]
  split <;> rfl

/-- Settles O10: the nibble of the operand is its low half. -/
theorem nibbleFrame : Obligations.NibbleFrame := by
  unfold Obligations.NibbleFrame
  intro s v hi hc
  obtain ⟨t, hrun, hsends, hline, hrest⟩ := exec_strayNibble (i := .writeNibble v) rfl hi hc
  rw [loNibble_eq_lowHalf] at hsends hline
  have h0 : 0 < 4 := by decide
  have h1 : 1 < 4 := by decide
  have h2 : 2 < 4 := by decide
  have h3 : 3 < 4 := by decide
  refine ⟨t, hrun, ?_, ?_, hrest⟩
  · rwa [nibbleEvents, bitLevel_lowHalf h0, bitLevel_lowHalf h1, bitLevel_lowHalf h2, bitLevel_lowHalf h3] at hsends
  · rw [hline, Lines.afterNibble, toLine_bitLevel_lowHalf h0, toLine_bitLevel_lowHalf h1, toLine_bitLevel_lowHalf h2,
      toLine_bitLevel_lowHalf h3]

/-- Settles O12: both resync nibbles are nibbles with constant bits. -/
theorem resyncNibbleFrames : Obligations.ResyncNibbleFrames := by
  unfold Obligations.ResyncNibbleFrames
  intro s hi hc
  exact ⟨exec_strayNibble (i := .resync8Bit) rfl hi hc, exec_strayNibble (i := .resyncCommit4Bit) rfl hi hc⟩

/-- Settles O56: the note of each of these transfers gives the observer up, and it stands at the last event. -/
theorem strayTransfersLoseTheDisplay : Obligations.StrayTransfersLoseTheDisplay := by
  unfold Obligations.StrayTransfersLoseTheDisplay
  intro i s t hcases h
  have hnibble : ∀ n, transferMicros s.par s.cfg.time i = some (nibbleMicros s.cfg.time n (.strayNibble n)) →
      t.lcd = Lcd.allUnknown := by
    intro n hm
    rw [exec_transfer hm] at h
    obtain ⟨_, _, rfl⟩ := transfer_eq_next h
    rw [run_nibbleMicros]
    rfl
  obtain rfl | ⟨v, rfl⟩ | rfl | rfl := hcases
  · obtain ⟨_, _, rfl⟩ := transfer_eq_next h
    rw [run_pulseMicros]
    rfl
  · exact hnibble _ rfl
  · exact hnibble _ rfl
  · exact hnibble _ rfl

/-! ### Command and data frames -/

/-- The byte a command or data frame sends, with its kind (R107 to R114); `none` for every other instruction. -/
def frameByte (par : Params) (i : Instr) : Option ByteEntry :=
  match i with
  | .cmdClear => some ⟨.cmd, par.cmdClear⟩
  | .cmdHome => some ⟨.cmd, par.cmdHome⟩
  | .cmdFunctionSet n f => some ⟨.cmd, functionSet par n f⟩
  | .cmdDisplayControl d c b => some ⟨.cmd, displayControl par d c b⟩
  | .cmdSetCgram slot => some ⟨.cmd, setCgram par slot.toNat⟩
  | .cmdSetDdram a => some ⟨.cmd, setDdram par a⟩
  | .data v => some ⟨.data, v⟩
  | _ => none

theorem transfersByte_of_frameByte {i : Instr} {s : State} {e : ByteEntry} (he : frameByte s.par i = some e)
    (hi : s.seq = .idle) (hc : s.line.allOutput = true) : transfersByte i s e.kind e.value := by
  refine transfersByte_of_transferMicros ?_ hi hc
  cases i <;> cases he <;> rfl

/-- With the standard base values a frame carries the byte it sends (log entry 25). -/
theorem encode_frameByte {par : Params} (h : Params.standardCommands par = true) {i : Instr} {e : ByteEntry}
    (he : frameByte par i = some e) : encode par i = ⟨.cmd9, byteBits e.value ++ [decide (e.kind = .data)]⟩ := by
  cases i with
  | cmdClear =>
    cases he
    rw [cmdClear_standard h]
    rfl
  | cmdHome =>
    cases he
    rw [cmdHome_standard h]
    rfl
  | cmdFunctionSet n f =>
    cases he
    rw [functionSet_standard h]
    cases n <;> cases f <;> rfl
  | cmdDisplayControl d c b =>
    cases he
    rw [displayControl_standard h]
    cases d <;> cases c <;> cases b <;> rfl
  | cmdSetCgram slot =>
    cases he
    rw [setCgram_standard h]
    show (⟨.cmd9, [false, false, false, slot.getLsbD 0, slot.getLsbD 1, slot.getLsbD 2, true, false, false]⟩ : Request) = _
    revert slot; decide
  | cmdSetDdram a =>
    cases he
    rw [setDdram_standard h]
    show (⟨.cmd9, [a.getLsbD 0, a.getLsbD 1, a.getLsbD 2, a.getLsbD 3, a.getLsbD 4, a.getLsbD 5, a.getLsbD 6, true, false]⟩ :
      Request) = _
    revert a; decide
  | data v => cases he; rfl
  | _ => cases he

/-- Every command or data frame that is read sends a byte (R107). -/
theorem frameByte_isSome_of_decodeCmd9 {w : List Bool} {i : Instr} (h : decodeCmd9 w = .ok i) (par : Params) :
    ∃ e, frameByte par i = some e := by
  unfold decodeCmd9 at h
  repeat' split at h
  all_goals cases h
  all_goals exact ⟨_, rfl⟩

theorem byteBits_inj {v w : Byte} (h : byteBits v = byteBits w) : v = w := by
  simp only [byteBits, List.cons.injEq] at h
  rw [← byteOfBits_getLsbD v, ← byteOfBits_getLsbD w]
  simp only [h]

/-- With the standard base values the byte sent is the byte in the frame (log entry 25). -/
theorem frameByte_of_decode {par : Params} (hstd : Params.standardCommands par = true) {v : Byte} {r : Bool} {i : Instr}
    (h : decode par ⟨.cmd9, byteBits v ++ [r]⟩ = .ok i) : frameByte par i = some ⟨if r then .data else .cmd, v⟩ := by
  obtain ⟨⟨k, u⟩, he⟩ := frameByte_isSome_of_decodeCmd9 (w := byteBits v ++ [r]) h par
  have hhost : Format.cmd9 ≠ .host := nofun
  have hword := (encode_frameByte hstd he).symm.trans (encodeOfDecodedFrame par _ i hhost rfl h)
  obtain ⟨hu, hr⟩ := List.append_inj (Request.mk.inj hword).2 rfl
  obtain rfl : u = v := byteBits_inj hu
  rw [he, ← (List.cons.inj hr).1]
  cases k <;> rfl

theorem functionSet_eq (par : Params) (n f : Bool) :
    functionSet par n f = par.cmdFunctionSet ||| (if n then 0x08 else 0x00) ||| (if f then 0x04 else 0x00) := by
  cases n <;> cases f <;> simp [functionSet, flagBit]

theorem displayControl_eq (par : Params) (d c b : Bool) :
    displayControl par d c b =
      par.cmdDisplayControl ||| (if d then 0x04 else 0x00) ||| (if c then 0x02 else 0x00) ||| (if b then 0x01 else 0x00) := by
  cases d <;> cases c <;> cases b <;> simp [displayControl, flagBit]

theorem slot_shift (slot : BitVec 3) : slot.toNat <<< 3 = 8 * slot.toNat := by
  rw [Nat.shiftLeft_eq, Nat.mul_comm]

/-- Settles O13: each row by the byte it sends. -/
theorem commandAndDataFrames : Obligations.CommandAndDataFrames := by
  unfold Obligations.CommandAndDataFrames
  intro s hi hc
  have hrow : ∀ {i : Instr} {e : ByteEntry}, frameByte s.par i = some e → transfersByte i s e.kind e.value :=
    fun he => transfersByte_of_frameByte he hi hc
  refine ⟨hrow (i := .cmdClear) rfl, hrow (i := .cmdHome) rfl, fun n f => ?_, fun d c b => ?_, fun slot => ?_, fun a => ?_,
    fun v => hrow (i := .data v) rfl, fun v r i hstd h => hrow (frameByte_of_decode hstd h)⟩
  · rw [← functionSet_eq]
    exact hrow (i := .cmdFunctionSet n f) rfl
  · rw [← displayControl_eq]
    exact hrow (i := .cmdDisplayControl d c b) rfl
  · rw [← slot_shift]
    exact hrow (i := .cmdSetCgram slot) rfl
  · rw [BitVec.ofNat_toNat]
    exact hrow (i := .cmdSetDdram a) rfl

end Sys2Proof.Machine
end

section
/-! SUPPORT. The effects of the host operations (41_initialization.md R140, 43_command_operations.md R180 to R187), READY
(10_state.md R29), and the statements about them. -/

namespace Sys2Proof.Machine

/-- Settles O17: the run of `init`, followed by READY and the status. -/
theorem initRunsTheWholeSequence : Obligations.InitRunsTheWholeSequence := by
  unfold Obligations.InitRunsTheWholeSequence
  intro s c hq hd
  obtain ⟨u, hu, hsends, hline, hcfg, _, _, hinbox, hpar, _⟩ := run_initMicros s c
  have hrun : exec (.init (some c)) s = .next (u.setReady.deliver .success) := by
    show whenIdle s (if PinConfig.distinct c.pin = true then _ else _) = _
    rw [whenIdle_idle hq, if_pos hd, hu]
  exact ⟨_, hrun, hsends, hline, hcfg, rfl, rfl, rfl, hinbox, hpar⟩

/-- Settles O21: the one byte is the home command; the last wait depends on HOME_EXTRA_DELAY. -/
theorem homeEffect : Obligations.HomeEffect := by
  unfold Obligations.HomeEffect
  intro s hs
  have htail : tailEvents s .home = if s.par.homeExtraDelay then [.delayUs s.cfg.time.tCmd] else [] := by
    simp only [tailEvents, opTail]
    split <;> rfl
  rw [← htail]
  exact exec_keepsControl (op := .home) hs rfl nofun rfl rfl

/-- The set-DDRAM-address byte of an address in range (R113, R183). -/
theorem setDdram_rowBase (par : Params) : ∀ row < 2, ∀ column < 16,
    setDdram par (rowBase row + BitVec.ofNat 7 column) =
      par.cmdSetDdram ||| BitVec.ofNat 8 ((if row = 0 then 0x00 else 0x40) + column) := by
  have haddr : ∀ row < 2, ∀ column < 16, (rowBase row + BitVec.ofNat 7 column).setWidth 8 =
      BitVec.ofNat 8 ((if row = 0 then 0x00 else 0x40) + column) := by decide
  intro row hrow column hcol
  rw [setDdram, haddr row hrow column hcol]

/-- Settles O22: in range the address exists and its command is sent; out of range the check fails. -/
theorem setCursorEffect : Obligations.SetCursorEffect := by
  unfold Obligations.SetCursorEffect
  intro s row column hs
  split
  case isTrue hr =>
    have hv : violatesParameters (.setCursor row column) = false := by
      simp only [violatesParameters, Bool.or_eq_false_iff, decide_eq_false_iff_not]
      omega
    have hbytes : opBytes s.par (.setCursor row column) =
        [⟨.cmd, s.par.cmdSetDdram ||| BitVec.ofNat 8 ((if row = 0 then 0x00 else 0x40) + column)⟩] := by
      rw [opBytes, ddramAddr_of_inRange hr, ← setDdram_rowBase s.par row hr.1 column hr.2]
      rfl
    rw [← hbytes]
    exact exec_keepsControl (op := .setCursor row column) hs rfl nofun hv rfl
  case isFalse hr =>
    have hv : violatesParameters (.setCursor row column) = true := by
      simp only [violatesParameters, Bool.or_eq_true, decide_eq_true_eq]
      omega
    exact exec_of_violatesParameters hs rfl nofun hv

/-- Settles O23: the one byte is the operand's low byte, as data. -/
theorem writeCharEffect : Obligations.WriteCharEffect := by
  unfold Obligations.WriteCharEffect
  intro s c hs
  exact exec_keepsControl (op := .writeChar c) hs rfl nofun rfl rfl

/-- The elements sent are those before the first marker (R187). -/
theorem stringElements_append {stop : Nat} {body rest : List Nat} (hbody : ∀ b ∈ body, b ≠ stop)
    (hrest : ∀ b, rest.head? = some b → b = stop) : stringElements stop (body ++ rest) = body := by
  have htail : stringElements stop rest = [] := by
    cases rest with
    | nil => rfl
    | cons b rest => simp [stringElements, hrest b rfl]
  rw [stringElements] at htail
  rw [stringElements, List.takeWhile_append_of_pos (by simpa using hbody), htail, List.append_nil]

/-- Settles O24: the bytes are the elements before the marker; an absent string fails its check. -/
theorem writeStringEffect : Obligations.WriteStringEffect := by
  unfold Obligations.WriteStringEffect
  intro s body rest hs hbody hrest
  have hbytes : opBytes s.par (.writeString (some (body ++ rest))) = body.map fun b => ⟨.data, BitVec.ofNat 8 b⟩ := by
    rw [opBytes, stringElements_append hbody hrest]
  rw [← hbytes]
  exact ⟨exec_keepsControl (op := .writeString (some (body ++ rest))) hs rfl nofun rfl rfl,
    exec_of_violatesParameters hs rfl nofun rfl⟩

/-- Settles O25: a slot in range and a present pattern pass the check, everything else fails it. -/
theorem createGlyphEffect : Obligations.CreateGlyphEffect := by
  unfold Obligations.CreateGlyphEffect
  intro s slot pattern hs
  refine ⟨fun p hp hslot => ?_, fun h => ?_⟩
  · subst hp
    have hv : violatesParameters (.createGlyph slot (some p)) = false := by simp [violatesParameters, hslot]
    exact exec_keepsControl (op := .createGlyph slot (some p)) hs rfl nofun hv rfl
  · have hv : violatesParameters (.createGlyph slot pattern) = true := by
      obtain rfl | h7 := h
      · simp [violatesParameters]
      · simp [violatesParameters, h7]
    exact exec_of_violatesParameters hs rfl nofun hv

/-- Settles O30: the gate stands before every operation's check, and of all acts only the end of `init` writes READY. -/
theorem readyGatesTheOperations : Obligations.ReadyGatesTheOperations := by
  unfold Obligations.ReadyGatesTheOperations
  refine ⟨fun op s hh hi hq hr => ?_, fun i s t h => ?_⟩
  · have hgate : ∀ k, whenReady s k = .refused .notReady := fun k => if_neg (by rw [hr]; exact Bool.false_ne_true)
    rw [exec_hostOperation hh hi, hostOperation.eq_def, whenIdle_idle hq, hgate]
  · obtain ⟨_, ha⟩ := exec_eq_next h
    cases ha with
    | transfer ms hm _ ht =>
      have hi : ¬ ∃ c, i = .init (some c) := by
        rintro ⟨c, rfl⟩
        cases hm
      simp [ht, hi]
    | status st _ hst ht =>
      have hi : ¬ ∃ c, i = .init (some c) := by
        rintro ⟨c, rfl⟩
        obtain ⟨h, _⟩ | ⟨h, _⟩ | ⟨_, h, _⟩ := hst <;> cases h
      simp [ht, hi]
    | init c hc _ ht => simp [ht, hc]
    | host ms _ hi _ _ _ ht =>
      rw [ht, finish_ready hi, runMicros_ready]
      simp [hi]

end Sys2Proof.Machine
end

section
/-! SUPPORT. The number of events and the sum of the delays of each instruction (42_transfer_primitives.md R163,
70_reset_and_hazards.md R264, R267), and the statements about them. -/

namespace Sys2Proof.Machine

/-- The events of a host operation whose parameters are in range, in the spec's terms (R142, R180). -/
def hostEvents (s : State) (op : Instr) : List Event :=
  match op with
  | .init (some c) => powerOnEvents c ++ resyncEvents s.par c ++
      (initBytes s.par c).flatMap (fun e => byteEvents c e.kind e.value) ++ [.delayUs c.time.tClear]
  | _ => (opBytes s.par op).flatMap (fun e => byteEvents s.cfg e.kind e.value) ++ tailEvents s op

theorem hostEvents_of_ne_init {op : Instr} (hi : ∀ c, op ≠ .init c) (s : State) :
    hostEvents s op = (opBytes s.par op).flatMap (fun e => byteEvents s.cfg e.kind e.value) ++ tailEvents s op := by
  cases op with
  | init c => exact absurd rfl (hi c)
  | _ => rfl

/-- What a host operation that answers and does not fail adds to the trace (R72). -/
theorem exec_host_trace {op : Instr} {s t : State} (hh : isHostOperation op = true) (hv : violatesParameters op = false)
    (h : exec op s = .next t) : t.trace = s.trace ++ hostEvents s op := by
  obtain ⟨_, ha⟩ := exec_eq_next h
  cases ha with
  | transfer ms hm _ _ => cases op <;> cases hh <;> cases hm
  | status st _ hst _ =>
    obtain ⟨rfl, _⟩ | ⟨rfl, _⟩ | ⟨_, hn, _⟩ := hst
    · cases hh
    · cases hh
    · rw [expansion_eq_none_iff hh, hv] at hn
      cases hn
  | init c hc _ ht =>
    obtain ⟨u, hu, ⟨htrace, _⟩, _⟩ := run_initMicros s c
    rw [ht, hu, hc]
    exact htrace
  | host ms _ hi _ hc hm ht =>
    obtain ⟨⟨htrace, _⟩, _⟩ := sendsBytes_finish op hc
    rw [ht, expansion_eq hm hi, htrace, hostEvents_of_ne_init hi]

/-! ### Lengths -/

theorem length_byteEvents (c : DriverConfig) (k : ByteKind) (v : Byte) : (byteEvents c k v).length = 20 := rfl

theorem length_flatMap_byteEvents (c : DriverConfig) (es : List ByteEntry) :
    (es.flatMap fun e => byteEvents c e.kind e.value).length = 20 * es.length := by
  induction es with
  | nil => rfl
  | cons e es ih =>
    rw [List.flatMap_cons, List.length_append, length_byteEvents, ih, List.length_cons]
    omega

theorem length_resyncEvents {par : Params} (h : par.tModeCommit = none) (c : DriverConfig) :
    (resyncEvents par c).length = 39 := by
  rw [resyncEvents, h]
  rfl

/-- A string without its end marker is sent whole. -/
theorem stringElements_of_no_marker {stop : Nat} {bs : List Nat} (h : ∀ b ∈ bs, b ≠ stop) :
    stringElements stop bs = bs := by
  have := stringElements_append (rest := []) h nofun
  rwa [List.append_nil] at this

/-- The number of bytes of a host operation other than `init` (R163). -/
def byteCount (op : Instr) : Nat :=
  match op with
  | .writeString s => (s.getD []).length
  | .createGlyph _ _ => 10
  | _ => 1

theorem length_opBytes {par : Params} {op : Instr} (hi : ∀ c, op ≠ .init c)
    (hstr : ∀ bs, op = .writeString (some bs) → ∀ b ∈ bs, b ≠ par.stringEnd) (hh : isHostOperation op = true)
    (hv : violatesParameters op = false) : (opBytes par op).length = byteCount op := by
  cases op with
  | init c => exact absurd rfl (hi c)
  | setCursor row column =>
    have hr : row < 2 ∧ column < 16 := by
      simp only [violatesParameters, Bool.or_eq_false_iff, decide_eq_false_iff_not] at hv
      omega
    rw [opBytes, ddramAddr_of_inRange hr]
    rfl
  | writeString bs =>
    cases bs with
    | none => cases hv
    | some bs =>
      rw [opBytes, stringElements_of_no_marker (hstr bs rfl), List.length_map]
      rfl
  | createGlyph slot p =>
    cases p with
    | none => simp [violatesParameters] at hv
    | some p => rfl
  | setDisplay f =>
    cases f with
    | none => cases hv
    | some f => rfl
  | clear | home | writeChar _ => rfl
  | _ => cases hh

/-- Without HOME_EXTRA_DELAY only `clear` waits after its last byte (D12). -/
theorem tailEvents_of_ne_clear {s : State} (hx : s.par.homeExtraDelay = false) {op : Instr} (hc : op ≠ .clear) :
    tailEvents s op = [] := by
  cases op with
  | clear => exact absurd rfl hc
  | home =>
    simp only [tailEvents, opTail, hx]
    rfl
  | _ => rfl

/-- The events of a host operation whose parameters are in range, counted, under the default parameters (R163). -/
theorem length_hostEvents {op : Instr} {s : State} (hm : s.par.tModeCommit = none) (hx : s.par.homeExtraDelay = false)
    (hstr : ∀ bs, op = .writeString (some bs) → ∀ b ∈ bs, b ≠ s.par.stringEnd) (hh : isHostOperation op = true)
    (hv : violatesParameters op = false) : (hostEvents s op).length = eventCount op := by
  by_cases hi : ∃ c, op = .init c
  · obtain ⟨c, rfl⟩ := hi
    cases c with
    | none => cases hv
    | some c =>
      simp only [hostEvents, List.length_append, length_resyncEvents hm, length_flatMap_byteEvents]
      rfl
  · have hi' : ∀ c, op ≠ .init c := fun c e => hi ⟨c, e⟩
    rw [hostEvents_of_ne_init hi', List.length_append, length_flatMap_byteEvents, length_opBytes hi' hstr hh hv]
    by_cases hc : op = .clear
    · subst hc
      rfl
    · rw [tailEvents_of_ne_clear hx hc]
      cases op with
      | init c => exact absurd rfl (hi' c)
      | clear => exact absurd rfl hc
      | home | setCursor _ _ | writeChar _ | writeString _ | createGlyph _ _ | setDisplay _ => rfl
      | _ => cases hh

/-- A transfer's events, counted (R163). -/
theorem length_transferMicros {par : Params} {t : TimingConfig} {i : Instr} {ms : List Micro}
    (h : transferMicros par t i = some ms) : ms.length = eventCount i ∧ violatesParameters i = false := by
  cases i <;> cases h <;> exact ⟨rfl, rfl⟩

/-- Settles O34: a transfer by the length of its expansion, a host operation by that of its frames, and a status by none. -/
theorem eventCounts : Obligations.EventCounts := by
  unfold Obligations.EventCounts
  intro i s t hm hx hstr h
  by_cases hh : isHostOperation i = true
  · obtain ⟨hv, rfl⟩ | ⟨hv, _⟩ := exec_host_status hh h
    · simp [hv]
    · simp [exec_host_trace hh hv h, length_hostEvents hm hx hstr hh hv, hv]
  · obtain ⟨_, ha⟩ := exec_eq_next h
    cases ha with
    | transfer ms hms _ ht =>
      obtain ⟨hlen, hv⟩ := length_transferMicros hms
      simp [ht, runMicros_trace, hlen, hv]
    | status st _ hst ht =>
      obtain ⟨rfl, _⟩ | ⟨rfl, _⟩ | ⟨hh', _⟩ := hst
      · simp [ht, violatesParameters, eventCount]
      · simp [ht, violatesParameters, eventCount]
      · exact absurd hh' hh
    | init c hc _ _ => exact absurd (hc ▸ rfl) hh
    | host ms hh' _ _ _ _ _ => exact absurd hh' hh

/-! ### Delays -/

@[simp] theorem totalDelay_append (es fs : List Event) : totalDelay (es ++ fs) = totalDelay es + totalDelay fs := by
  simp [totalDelay]

/-- The delays of one byte: two enable pulses and T_CMD (R267). -/
def byteTime (t : TimingConfig) : Nat := 2 * (1 + t.tEnpulse) + t.tCmd

theorem totalDelay_nibbleEvents (c : DriverConfig) (n : Nibble) : totalDelay (nibbleEvents c n) = 1 + c.time.tEnpulse := by
  simp [totalDelay, nibbleEvents, pulseEvents, lineWrite, Event.delay]

theorem totalDelay_byteEvents (c : DriverConfig) (k : ByteKind) (v : Byte) :
    totalDelay (byteEvents c k v) = byteTime c.time := by
  simp only [byteEvents, totalDelay_append, totalDelay_nibbleEvents, byteTime]
  simp only [totalDelay, lineWrite, Event.delay, List.map_cons, List.map_nil, List.sum_cons, List.sum_nil]
  omega

theorem totalDelay_flatMap_byteEvents (c : DriverConfig) (es : List ByteEntry) :
    totalDelay (es.flatMap fun e => byteEvents c e.kind e.value) = es.length * byteTime c.time := by
  induction es with
  | nil => simp [totalDelay]
  | cons e es ih =>
    rw [List.flatMap_cons, totalDelay_append, totalDelay_byteEvents, ih, List.length_cons, Nat.succ_mul, Nat.add_comm]

theorem totalDelay_resyncEvents {par : Params} (h : par.tModeCommit = none) (c : DriverConfig) :
    totalDelay (resyncEvents par c) = 9150 + 4 * (1 + c.time.tEnpulse) := by
  simp only [resyncEvents, h, totalDelay_append, totalDelay_nibbleEvents]
  simp only [totalDelay, Event.delay, List.map_cons, List.map_nil, List.sum_cons, List.sum_nil]
  omega

/-- The delays of a host operation whose parameters are in range, under the default parameters (R267). -/
theorem totalDelay_hostEvents {op : Instr} {s : State} (hm : s.par.tModeCommit = none) (hx : s.par.homeExtraDelay = false)
    (hstr : ∀ bs, op = .writeString (some bs) → ∀ b ∈ bs, b ≠ s.par.stringEnd) (hh : isHostOperation op = true)
    (hv : violatesParameters op = false) : totalDelay (hostEvents s op) = leastTime s.cfg.time op := by
  by_cases hi : ∃ c, op = .init c
  · obtain ⟨c, rfl⟩ := hi
    cases c with
    | none => cases hv
    | some c =>
      have hpower : totalDelay (powerOnEvents c) = 1000 * c.time.tPoweron := by
        simp [totalDelay, powerOnEvents, lineConfigure, Event.delay]
      have hclear : totalDelay [.delayUs c.time.tClear] = c.time.tClear := rfl
      simp only [hostEvents, totalDelay_append, totalDelay_resyncEvents hm, totalDelay_flatMap_byteEvents, hpower, hclear,
        leastTime, byteTime, initBytes, List.length_cons, List.length_nil]
      omega
  · have hi' : ∀ c, op ≠ .init c := fun c e => hi ⟨c, e⟩
    rw [hostEvents_of_ne_init hi', totalDelay_append, totalDelay_flatMap_byteEvents, length_opBytes hi' hstr hh hv]
    by_cases hc : op = .clear
    · subst hc
      exact congrArg (· + _) (Nat.one_mul _)
    · rw [tailEvents_of_ne_clear hx hc]
      cases op with
      | init c => exact absurd rfl (hi' c)
      | clear => exact absurd rfl hc
      | home | setCursor _ _ | writeChar _ | setDisplay _ => exact Nat.one_mul _
      | writeString _ | createGlyph _ _ => rfl
      | _ => cases hh

/-- Settles O35: the new events are those of the operation. -/
theorem leastBlockingTimes : Obligations.LeastBlockingTimes := by
  unfold Obligations.LeastBlockingTimes
  intro op s t hm hx hh hv hstr h
  rw [exec_host_trace hh hv h, totalDelay_append, totalDelay_hostEvents hm hx hstr hh hv]

end Sys2Proof.Machine
end

section
/-! SUPPORT. The sequencer event by event (10_state.md R33, D31), and the statements about it. -/

namespace Sys2Proof.Machine

/-- A tick in the middle of an operation emits the event at the index and moves on (R33). -/
theorem tick_running {s : State} {op : Instr} {k : Nat} {ms : List Micro} {m : Micro} (hq : s.seq = .running op k)
    (hex : expansion s.par s.cfg.time op = some ms) (hm : ms[k]? = some m) :
    tick s = arriveAt op ms (k + 1) (emit s m) := by
  simp only [tick, hq, hex, hm]

theorem step_running {s : State} {op : Instr} {k : Nat} (hq : s.seq = .running op k) : step s = .next (tick s) := by
  simp only [step, hq]

/-- Settles O36: the index is one more, or the operation is finished. -/
theorem eachStepEmitsOneEvent : Obligations.EachStepEmitsOneEvent := by
  unfold Obligations.EachStepEmitsOneEvent
  intro s op k ms m hq hex hm
  refine ⟨_, step_running hq, ?_⟩
  rw [tick_running hq hex hm, arriveAt]
  split
  · exact ⟨emit_trace s m, emit_line s m, emit_inbox s m, rfl, emit_status s m, emit_cfg s m, emit_ready s m⟩
  · obtain ⟨hline, htrace, _, _, _, hinbox, _⟩ := finish_eq op (emit s m)
    exact ⟨htrace.trans (emit_trace s m), hline.trans (emit_line s m), hinbox.trans (emit_inbox s m), rfl, rfl⟩

/-! ### The sequencer position is not read by an event -/

theorem emit_setSeq (s : State) (q : Seq) (m : Micro) : emit (s.setSeq q) m = (emit s m).setSeq q := by
  obtain ⟨act, note⟩ := m
  cases note <;> rfl

theorem arriveAt_setSeq (op : Instr) (ms : List Micro) (k : Nat) (s : State) (q : Seq) :
    arriveAt op ms k (s.setSeq q) = arriveAt op ms k s := by
  have hfinish : finish op (s.setSeq q) = finish op s := by
    cases op with
    | setDisplay f => cases f <;> rfl
    | _ => rfl
  unfold arriveAt
  rw [hfinish]
  rfl

theorem arriveAt_of_lt {op : Instr} {ms : List Micro} {k : Nat} (h : k < ms.length) (s : State) :
    arriveAt op ms k s = s.setSeq (.running op k) := if_pos h

theorem arriveAt_length (op : Instr) (ms : List Micro) (s : State) : arriveAt op ms ms.length s = finish op s :=
  if_neg (Nat.lt_irrefl _)

theorem runMicros_take_succ {ms : List Micro} {k : Nat} (h : k < ms.length) (s : State) :
    runMicros (ms.take (k + 1)) s = emit (runMicros (ms.take k) s) ms[k] := by
  rw [List.take_succ_eq_append_getElem h, runMicros_append]
  rfl

/-- One step of the machine in the middle of an expansion (R33). -/
theorem step_arriveAt {op : Instr} {s : State} {ms : List Micro} (hex : expansion s.par s.cfg.time op = some ms) {k : Nat}
    (hk : k < ms.length) :
    step (arriveAt op ms k (runMicros (ms.take k) s)) = .next (arriveAt op ms (k + 1) (runMicros (ms.take (k + 1)) s)) := by
  rw [arriveAt_of_lt hk, step_running rfl, tick_running rfl (ms := ms) _ (List.getElem?_eq_getElem hk), emit_setSeq,
    arriveAt_setSeq, runMicros_take_succ hk]
  rwa [State.setSeq_par, State.setSeq_cfg, runMicros_par, runMicros_cfg]

theorem run_succ_of_step {s t : State} (h : step s = .next t) (k : Nat) :
    Host.Core.run Sys2Proof.core (k + 1) s = Host.Core.run Sys2Proof.core k t := by
  have h' : Sys2Proof.core.step s = .next t := h
  simp only [Host.Core.run, h']

/-- `k` steps from before event `j`: the next `k` events are out (R33). -/
theorem run_arriveAt {op : Instr} {s : State} {ms : List Micro} (hex : expansion s.par s.cfg.time op = some ms) {j k : Nat}
    (h : j + k ≤ ms.length) :
    Host.Core.run Sys2Proof.core k (arriveAt op ms j (runMicros (ms.take j) s)) =
      .next (arriveAt op ms (j + k) (runMicros (ms.take (j + k)) s)) := by
  induction k generalizing j with
  | zero => rfl
  | succ k ih =>
    have hk : j + 1 + k = j + (k + 1) := by omega
    rw [run_succ_of_step (step_arriveAt hex (by omega)), ih (by omega), hk]

/-- The whole expansion event by event: before each event the sequencer stands at its index, and it ends where the expansion run
whole ends (D31). -/
theorem run_expansion {op : Instr} {s : State} {ms : List Micro} (hex : expansion s.par s.cfg.time op = some ms) :
    (∀ k, k < ms.length → ∃ t, Host.Core.run Sys2Proof.core k (arriveAt op ms 0 s) = .next t ∧ t.seq = .running op k ∧
      t.trace.length = s.trace.length + k) ∧
    Host.Core.run Sys2Proof.core ms.length (arriveAt op ms 0 s) = .next (finish op (runMicros ms s)) := by
  have hrun : ∀ k, k ≤ ms.length →
      Host.Core.run Sys2Proof.core k (arriveAt op ms 0 s) = .next (arriveAt op ms k (runMicros (ms.take k) s)) := by
    intro k hk
    have := run_arriveAt hex (j := 0) (k := k) (by omega)
    rwa [Nat.zero_add] at this
  refine ⟨fun k hk => ⟨_, hrun k (Nat.le_of_lt hk), ?_⟩, ?_⟩
  · rw [arriveAt_of_lt hk, State.setSeq_seq, State.setSeq_trace, runMicros_trace, List.length_append, List.length_map,
      List.length_take, Nat.min_eq_left (Nat.le_of_lt hk)]
    exact ⟨rfl, rfl⟩
  · rw [hrun _ (Nat.le_refl _), List.take_length, arriveAt_length]

/-! ### The checks before the first event -/

/-- Presenting `op` to `s` with the outcome `started` and running it whole with the outcome `done` agree (D31): a refusal is the
same refusal, and from the presented state the machine steps through the indexes and ends in `done`. -/
def Agree (op : Instr) (s : State) (started done : Result) : Prop :=
  (∀ r, started = .refused r → done = .refused r) ∧
  ∀ s₀, started = .next s₀ →
    ∃ n, (∀ k, k < n → ∃ t, Host.Core.run Sys2Proof.core k s₀ = .next t ∧ t.seq = .running op k ∧
        t.trace.length = s.trace.length + k) ∧
      Host.Core.run Sys2Proof.core n s₀ = done

section
variable {op : Instr} {s : State}

theorem agree_refused (r : Refusal) : Agree op s (.refused r) (.refused r) := by
  refine ⟨fun _ h => h, fun s₀ h => ?_⟩
  cases h

/-- A failed check has no event. -/
theorem agree_invalidParameter : Agree op s (invalidParameter s) (invalidParameter s) := by
  refine ⟨nofun, fun s₀ h => ⟨0, nofun, ?_⟩⟩
  cases h
  rfl

/-- `u` is the state the expansion starts from: `s` itself, or for `init` the state with the new configuration. -/
theorem agree_expansion {u : State} {ms : List Micro} (hex : expansion u.par u.cfg.time op = some ms)
    (htrace : u.trace = s.trace) : Agree op s (.next (arriveAt op ms 0 u)) (.next (finish op (runMicros ms u))) := by
  refine ⟨nofun, fun s₀ h => ?_⟩
  cases h
  rw [← htrace]
  exact ⟨ms.length, run_expansion hex⟩

theorem Agree.whenIdle {a b : Result} (h : Agree op s a b) : Agree op s (whenIdle s a) (whenIdle s b) := by
  by_cases hq : s.seq = .idle
  · rwa [whenIdle_idle hq, whenIdle_idle hq]
  · rw [whenIdle_busy hq, whenIdle_busy hq]
    exact agree_refused _

theorem Agree.whenReady {a b : Result} (h : Agree op s a b) : Agree op s (whenReady s a) (whenReady s b) := by
  unfold Machine.whenReady
  split
  · exact h
  · exact agree_refused _

theorem Agree.whenConfigured {a b : Result} (h : Agree op s a b) : Agree op s (whenConfigured s a) (whenConfigured s b) := by
  unfold Machine.whenConfigured
  split
  · exact h
  · exact agree_refused _

end

/-- `init`: the configuration is stored before the first event on both sides (R140). -/
theorem agree_init (config : Option DriverConfig) (s : State) :
    Agree (.init config) s (start (.init config) s) (exec (.init config) s) := by
  refine Agree.whenIdle ?_
  cases config with
  | none => exact agree_invalidParameter
  | some c =>
    have hrun : Agree (.init (some c)) s (.next (arriveAt (.init (some c)) (initMicros s.par c) 0 (s.storeConfig c)))
        (.next (finish (.init (some c)) (runMicros (initMicros s.par c) (s.storeConfig c)))) := agree_expansion rfl rfl
    show Agree _ s (if PinConfig.distinct c.pin = true then _ else _) (if PinConfig.distinct c.pin = true then _ else _)
    split
    · exact hrun
    · exact agree_refused _

theorem start_hostOperation {op : Instr} (hh : isHostOperation op = true) (hi : ∀ c, op ≠ .init c) (s : State) :
    start op s = whenIdle s (whenReady s (match expansion s.par s.cfg.time op with
      | none => invalidParameter s
      | some ms => whenConfigured s (.next (arriveAt op ms 0 s)))) := by
  cases op with
  | init c => exact absurd rfl (hi c)
  | clear | home | setCursor _ _ | writeChar _ | writeString _ | createGlyph _ _ | setDisplay _ => rfl
  | _ => cases hh

/-- Settles O37: both sides make the same checks, and then run the same expansion. -/
theorem eventByEventAgreesWithExec : Obligations.EventByEventAgreesWithExec := by
  unfold Obligations.EventByEventAgreesWithExec
  intro op s hh
  by_cases hi : ∃ c, op = .init c
  · obtain ⟨c, rfl⟩ := hi
    exact agree_init c s
  · have hi' : ∀ c, op ≠ .init c := fun c e => hi ⟨c, e⟩
    show Agree op s (start op s) (exec op s)
    rw [start_hostOperation hh hi', exec_hostOperation hh hi', hostOperation.eq_def]
    refine Agree.whenIdle (Agree.whenReady ?_)
    cases hex : expansion s.par s.cfg.time op with
    | none => exact agree_invalidParameter
    | some ms => exact Agree.whenConfigured (agree_expansion hex rfl)

end Sys2Proof.Machine
end

section
/-! SUPPORT. Nothing the block does depends on the attached controller (20_memory.md R64, R75). -/

namespace Sys2Proof.Machine

/-! ### Each act commutes with a change of the observer, up to the observer -/

theorem emit_setLcd (s : State) (l : Lcd) (m : Micro) : ∃ l', emit (s.setLcd l) m = (emit s m).setLcd l' := by
  obtain ⟨act, note⟩ := m
  cases note <;> exact ⟨_, rfl⟩

theorem runMicros_setLcd (ms : List Micro) (s : State) (l : Lcd) :
    ∃ l', runMicros ms (s.setLcd l) = (runMicros ms s).setLcd l' := by
  induction ms generalizing s l with
  | nil => exact ⟨l, rfl⟩
  | cons m ms ih =>
    obtain ⟨l', h⟩ := emit_setLcd s l m
    rw [runMicros_cons, runMicros_cons, h]
    exact ih _ l'

theorem storeAtEnd_setLcd (op : Instr) (s : State) (l : Lcd) : storeAtEnd op (s.setLcd l) = (storeAtEnd op s).setLcd l := by
  cases op with
  | setDisplay f => cases f <;> rfl
  | _ => rfl

theorem finish_setLcd (op : Instr) (s : State) (l : Lcd) : finish op (s.setLcd l) = (finish op s).setLcd l := by
  rw [finish, storeAtEnd_setLcd]
  rfl

theorem arriveAt_setLcd (op : Instr) (ms : List Micro) (k : Nat) (s : State) (l : Lcd) :
    arriveAt op ms k (s.setLcd l) = (arriveAt op ms k s).setLcd l := by
  unfold arriveAt
  split
  · rfl
  · exact finish_setLcd op s l

theorem tick_setLcd (s : State) (l : Lcd) : ∃ l', tick (s.setLcd l) = (tick s).setLcd l' := by
  simp only [tick, State.setLcd_seq, State.setLcd_par, State.setLcd_cfg]
  split
  · exact ⟨l, rfl⟩
  · exact ⟨l, rfl⟩
  · split
    · exact ⟨l, rfl⟩
    · split
      · exact ⟨l, finish_setLcd ..⟩
      · next m _ =>
        obtain ⟨l', h⟩ := emit_setLcd s l m
        exact ⟨l', by rw [h, arriveAt_setLcd]⟩

/-! ### Outcomes -/

theorem sameBlock_refused (r : Refusal) : sameBlock (.refused r) (.refused r) := rfl

theorem sameBlock_next {t t' : State} (h : ∃ l, t' = t.setLcd l) : sameBlock (.next t) (.next t') := by
  obtain ⟨l, rfl⟩ := h
  rfl

section
variable {s : State} {l : Lcd} {k k' : Result}

theorem sameBlock_whenIdle (h : sameBlock k k') : sameBlock (whenIdle s k) (whenIdle (s.setLcd l) k') := by
  unfold whenIdle
  rw [State.setLcd_seq]
  cases s.seq with
  | idle => exact h
  | running _ _ => exact sameBlock_refused _
  | internal _ => exact sameBlock_refused _

theorem sameBlock_whenReady (h : sameBlock k k') : sameBlock (whenReady s k) (whenReady (s.setLcd l) k') := by
  unfold whenReady
  rw [State.setLcd_ready]
  split
  · exact h
  · exact sameBlock_refused _

theorem sameBlock_whenConfigured (h : sameBlock k k') : sameBlock (whenConfigured s k) (whenConfigured (s.setLcd l) k') := by
  unfold whenConfigured
  rw [State.setLcd_line]
  split
  · exact h
  · exact sameBlock_refused _

end

theorem sameBlock_deliver (s : State) (l : Lcd) (st : Status) :
    sameBlock (.next (s.deliver st)) (.next ((s.setLcd l).deliver st)) := rfl

theorem sameBlock_transfer (ms : List Micro) (s : State) (l : Lcd) : sameBlock (transfer s ms) (transfer (s.setLcd l) ms) :=
  sameBlock_whenIdle (sameBlock_whenConfigured (sameBlock_next (runMicros_setLcd ms s l)))

theorem sameBlock_finish (op : Instr) (ms : List Micro) (s : State) (l : Lcd) :
    sameBlock (.next (finish op (runMicros ms s))) (.next (finish op (runMicros ms (s.setLcd l)))) := by
  obtain ⟨l', h⟩ := runMicros_setLcd ms s l
  rw [h, finish_setLcd]
  exact sameBlock_next ⟨l', rfl⟩

theorem sameBlock_hostOperation {op : Instr} (hh : isHostOperation op = true) (hi : ∀ c, op ≠ .init c) (s : State) (l : Lcd) :
    sameBlock (exec op s) (exec op (s.setLcd l)) := by
  rw [exec_hostOperation hh hi, exec_hostOperation hh hi, hostOperation.eq_def, hostOperation.eq_def]
  refine sameBlock_whenIdle (sameBlock_whenReady ?_)
  rw [State.setLcd_par, State.setLcd_cfg]
  cases expansion s.par s.cfg.time op with
  | none => exact sameBlock_deliver s l _
  | some ms => exact sameBlock_whenConfigured (sameBlock_finish op ms s l)

theorem sameBlock_init (config : Option DriverConfig) (s : State) (l : Lcd) :
    sameBlock (execInit config s) (execInit config (s.setLcd l)) := by
  refine sameBlock_whenIdle ?_
  cases config with
  | none => exact sameBlock_deliver s l _
  | some c =>
    have hrun := sameBlock_finish (.init (some c)) (initMicros s.par c) (s.storeConfig c) l
    show sameBlock (if PinConfig.distinct c.pin = true then _ else _) (if PinConfig.distinct c.pin = true then _ else _)
    split
    · exact hrun
    · exact sameBlock_refused _

/-- Every instruction, in states that differ in the observer alone (R64). -/
theorem sameBlock_exec (i : Instr) (s : State) (l : Lcd) : sameBlock (exec i s) (exec i (s.setLcd l)) := by
  cases i with
  | init config => exact sameBlock_init config s l
  | clear | home | setCursor _ _ | writeChar _ | writeString _ | createGlyph _ _ | setDisplay _ =>
    exact sameBlock_hostOperation (by rfl) (by exact nofun) s l
  | statusSuccess | statusInvalidParameter => exact sameBlock_whenIdle (sameBlock_deliver s l _)
  | statusBusy => exact sameBlock_refused _
  | _ => exact sameBlock_transfer _ s l

/-- Settles O43: the word a step runs does not depend on the observer, and neither does the instruction. -/
theorem displayNeverInfluencesTheBlock : Obligations.DisplayNeverInfluencesTheBlock := by
  unfold Obligations.DisplayNeverInfluencesTheBlock
  intro s l
  simp only [step, State.setLcd_seq, State.setLcd_inbox]
  split
  · exact sameBlock_next (tick_setLcd s l)
  · simp only [runInternal, State.setLcd_par]
    split
    · exact sameBlock_exec _ (s.setSeq .idle) l
    · exact sameBlock_refused _
  · split
    · exact sameBlock_next ⟨l, rfl⟩
    · next ws _ =>
      simp only [runRequest, State.setInbox_par, State.setLcd_par]
      split
      · exact sameBlock_exec _ (s.setInbox ws) l
      · exact sameBlock_refused _

end Sys2Proof.Machine
end

section
/-! SUPPORT. What the trace shows (20_memory.md R76, R77, 70_reset_and_hazards.md R254, R266): the nibble log by the falling edges
of E, the halves of the bytes, the lines while E is high; and the statements about them. -/

namespace Sys2Proof.Machine

/-! ### The halves of the bytes -/

/-- Settles O46: the bytes and nibbles of an operation's run, or of `init`'s. -/
theorem nibblesAreTheHalvesOfBytes : Obligations.NibblesAreTheHalvesOfBytes := by
  unfold Obligations.NibblesAreTheHalvesOfBytes
  intro op s t hh h
  obtain rfl | ⟨c, rfl, _, ht⟩ | ⟨hi, _, hc, rfl, _⟩ := exec_host_next hh h
  · have hi : ∀ c, op ≠ .init (some c) := by
      rintro c rfl
      obtain ⟨hv, _⟩ | ⟨_, hst⟩ := exec_host_status hh h
      · cases hv
      · cases hst
    refine ⟨[], (List.append_nil _).symm, ?_⟩
    split
    · exact absurd rfl (hi _)
    · simp
  · obtain ⟨u, hu, ⟨_, _, hbytes⟩, _⟩ := run_initMicros s c
    refine ⟨initBytes s.par c, ?_, exec_init_nibLog h⟩
    rw [ht, hu]
    exact hbytes
  · obtain ⟨_, _, ⟨_, hnib, hbytes⟩, _⟩ := run_opBytes op s hc
    refine ⟨_, hbytes, ?_⟩
    split
    · exact absurd rfl (hi _)
    · rw [hnib, List.append_nil]

/-! ### The pins an operation leaves -/

/-- An operation other than a successful `init` leaves the pins (R28). -/
theorem exec_pin {op : Instr} (hi : ∀ c, op ≠ .init (some c)) {s t : State} (h : exec op s = .next t) :
    t.cfg.pin = s.cfg.pin := by
  rw [exec_cfg h]
  cases op with
  | init c =>
    cases c with
    | none => rfl
    | some c => exact absurd rfl (hi c)
  | setDisplay f => cases f <;> rfl
  | _ => rfl

/-! ### The scan for falling edges of E -/

/-- The wait after the `0010` nibble, if there is one (D9). -/
def commitEvents (par : Params) : List Event := (par.tModeCommit.map Event.delayUs).toList

theorem mem_commitEvents {par : Params} {e : Event} (he : e ∈ commitEvents par) : ∃ n, e = .delayUs n := by
  unfold commitEvents at he
  cases h : par.tModeCommit with
  | none =>
    rw [h] at he
    cases he
  | some n =>
    rw [h] at he
    exact ⟨n, List.mem_singleton.mp he⟩

theorem resyncEvents_eq (par : Params) (c : DriverConfig) :
    resyncEvents par c = nibbleEvents c 0x3 ++ ([.delayUs 4500] ++ (nibbleEvents c 0x3 ++ ([.delayUs 4500] ++
      (nibbleEvents c 0x3 ++ ([.delayUs 150] ++ (nibbleEvents c 0x2 ++ commitEvents par)))))) := by
  unfold resyncEvents commitEvents
  cases par.tModeCommit <;> simp only [List.append_assoc] <;> rfl

theorem scan_wait (cl : Level) (pins : PinConfig) (ls : Lines) (n : Nat) (es : List Event) :
    scanNibbles cl pins ls ([.delayUs n] ++ es) = scanNibbles cl pins ls es := rfl

theorem scan_delays_append (cl : Level) (pins : PinConfig) {ds : List Event} (hds : ∀ e ∈ ds, ∃ n, e = .delayUs n)
    (ls : Lines) (es : List Event) : scanNibbles cl pins ls (ds ++ es) = scanNibbles cl pins ls es := by
  induction ds with
  | nil => rfl
  | cons d ds ih =>
    obtain ⟨⟨n, rfl⟩, hds'⟩ := List.forall_mem_cons.mp hds
    exact ih hds'

theorem ofNat_natOfBits_nibble (n : Nibble) :
    BitVec.ofNat 4 (natOfBits [n.getLsbD 0, n.getLsbD 1, n.getLsbD 2, n.getLsbD 3]) = n := by
  revert n; decide

theorem nibbleOnLines_driveNibble (ls : Lines) (n : Nibble) : nibbleOnLines (ls.driveNibble n) = n := by
  have hbit : ∀ b, decide (Level.toLine (levelOfBit b) = .high) = b := fun b => by cases b <;> rfl
  have h0 : decide ((ls.driveNibble n).d0.level = .high) = n.getLsbD 0 := hbit _
  have h1 : decide ((ls.driveNibble n).d1.level = .high) = n.getLsbD 1 := hbit _
  have h2 : decide ((ls.driveNibble n).d2.level = .high) = n.getLsbD 2 := hbit _
  have h3 : decide ((ls.driveNibble n).d3.level = .high) = n.getLsbD 3 := hbit _
  rw [nibbleOnLines, h0, h1, h2, h3, ofNat_natOfBits_nibble]

section
variable {c : DriverConfig} (hd : PinConfig.distinct c.pin = true) (cl : Level)
include hd

theorem levelsAfter_eq_set (l : Line) (v : LineLevel) (ls : Lines) :
    levelsAfter c.pin (PinConfig.ofLine c.pin l) v ls = ls.set l ⟨(ls.get l).mode, v⟩ := by
  refine Lines.ext_get fun k => ?_
  have hpin : PinConfig.ofLine c.pin k = PinConfig.ofLine c.pin l ↔ k = l := ⟨PinConfig.ofLine_inj hd, fun h => h ▸ rfl⟩
  simp only [levelsAfter_get, Lines.get_set, hpin]
  split
  · next h => rw [h]
  · rfl

theorem scan_lineConfigure (l : Line) (ls : Lines) (es : List Event) :
    scanNibbles cl c.pin ls (lineConfigure c l :: es) =
      scanNibbles cl c.pin (ls.set l ⟨(ls.get l).mode, Level.toLine cl⟩) es := by
  rw [lineConfigure, scanNibbles, levelsAfter_eq_set hd]

/-- A write to E that makes it fall is found, no other write is (R76). -/
theorem scan_lineWrite (l : Line) (v : Level) (ls : Lines) (es : List Event) :
    scanNibbles cl c.pin ls (lineWrite c l v :: es) =
      (if l = .e ∧ v = .low ∧ ls.e.level = .high then [⟨ls.rs.level, nibbleOnLines ls⟩] else []) ++
        scanNibbles cl c.pin (ls.set l ⟨(ls.get l).mode, Level.toLine v⟩) es := by
  have hpin : PinConfig.ofLine c.pin l = c.pin.e ↔ l = .e :=
    ⟨fun h => PinConfig.ofLine_inj hd (k := .e) h, fun h => h ▸ rfl⟩
  simp only [lineWrite, scanNibbles, levelsAfter_eq_set hd, hpin]
  split <;> rfl

theorem scan_driveNibble (n : Nibble) (ls : Lines) (es : List Event) :
    scanNibbles cl c.pin ls ([lineWrite c .d0 (bitLevel n 0), lineWrite c .d1 (bitLevel n 1), lineWrite c .d2 (bitLevel n 2),
      lineWrite c .d3 (bitLevel n 3)] ++ es) = scanNibbles cl c.pin (ls.driveNibble n) es := by
  simp [scan_lineWrite hd, Lines.set, Lines.get, Lines.driveNibble]
  rfl

/-- The last event of a pulse is a fall of E, the first one too if E was high. -/
theorem scan_pulseEvents (ls : Lines) (es : List Event) :
    scanNibbles cl c.pin ls (pulseEvents c ++ es) =
      (if ls.e.level = .high then [⟨ls.rs.level, nibbleOnLines ls⟩] else []) ++
        ⟨ls.rs.level, nibbleOnLines ls⟩ :: scanNibbles cl c.pin ls.enableLow es := by
  simp [pulseEvents, scan_lineWrite hd, scanNibbles, Lines.set, Lines.get, Level.toLine, Lines.enableLow]
  rfl

/-- A nibble is found once at the end of its pulse, and a first time at its start if E was high (R266). -/
theorem scan_nibbleEvents (n : Nibble) (ls : Lines) (es : List Event) :
    scanNibbles cl c.pin ls (nibbleEvents c n ++ es) =
      (if ls.e.level = .high then [⟨ls.rs.level, n⟩] else []) ++ ⟨ls.rs.level, n⟩ ::
        scanNibbles cl c.pin (ls.driveNibble n).enableLow es := by
  rw [nibbleEvents, List.append_assoc, scan_driveNibble hd, scan_pulseEvents hd, nibbleOnLines_driveNibble]
  rfl

theorem scan_nibbleEvents_of_low (n : Nibble) {ls : Lines} (he : ls.e.level = .low) (es : List Event) :
    scanNibbles cl c.pin ls (nibbleEvents c n ++ es) =
      ⟨ls.rs.level, n⟩ :: scanNibbles cl c.pin (ls.driveNibble n).enableLow es := by
  rw [scan_nibbleEvents hd, he]
  rfl

/-- With E low a byte is found as its two nibbles (R77). -/
theorem scan_byteEvents (k : ByteKind) (v : Byte) {ls : Lines} (he : ls.e.level = .low) (es : List Event) :
    scanNibbles cl c.pin ls (byteEvents c k v ++ es) = byteNibbles k v ++ scanNibbles cl c.pin (ls.afterByte k v) es := by
  simp only [byteEvents, List.append_assoc, List.cons_append, List.nil_append]
  rw [scan_lineWrite hd, scan_nibbleEvents_of_low hd cl _ (by exact he), scan_nibbleEvents_of_low hd cl _ rfl, scanNibbles,
    Lines.afterByte, loNibble_eq_lowHalf, Lines.driveSelect, rsLevel_eq_selectLevel]
  rfl

theorem scan_bytes (bytes : List ByteEntry) {ls : Lines} (he : ls.e.level = .low) {es : List Event}
    (hes : ∀ e ∈ es, ∃ n, e = .delayUs n) :
    scanNibbles cl c.pin ls (bytes.flatMap (fun e => byteEvents c e.kind e.value) ++ es) =
      bytes.flatMap fun e => byteNibbles e.kind e.value := by
  induction bytes generalizing ls with
  | nil =>
    have := scan_delays_append cl c.pin hes ls []
    rwa [List.append_nil] at this
  | cons e bytes ih =>
    rw [List.flatMap_cons, List.flatMap_cons, List.append_assoc, scan_byteEvents hd cl _ _ he, ih rfl]

/-- The six configurations put every level at CONFIG_LEVEL, and nothing is found (R31, R266). -/
theorem scan_powerOnEvents (ls : Lines) (es : List Event) :
    ∃ ls' : Lines, scanNibbles cl c.pin ls (powerOnEvents c ++ es) = scanNibbles cl c.pin ls' es ∧
      ls'.rs.level = Level.toLine cl ∧ ls'.e.level = Level.toLine cl := by
  refine ⟨⟨⟨ls.rs.mode, Level.toLine cl⟩, ⟨ls.e.mode, Level.toLine cl⟩, ⟨ls.d0.mode, Level.toLine cl⟩,
    ⟨ls.d1.mode, Level.toLine cl⟩, ⟨ls.d2.mode, Level.toLine cl⟩, ⟨ls.d3.mode, Level.toLine cl⟩⟩, ?_, rfl, rfl⟩
  simp only [powerOnEvents, List.cons_append, List.nil_append, scan_lineConfigure hd, scanNibbles]
  rfl

/-- The resync sequence is found as its four nibbles, and with E high before it the first one a second time (R266). -/
theorem scan_resyncEvents (par : Params) (ls : Lines) (es : List Event) :
    ∃ ls' : Lines, scanNibbles cl c.pin ls (resyncEvents par c ++ es) =
      (if ls.e.level = .high then [⟨ls.rs.level, 0x3⟩] else []) ++
        ([0x3, 0x3, 0x3, 0x2].map fun n => (⟨ls.rs.level, n⟩ : NibbleEntry)) ++ scanNibbles cl c.pin ls' es ∧
      ls'.e.level = .low := by
  refine ⟨(ls.driveNibble 0x2).enableLow, ?_, rfl⟩
  rw [resyncEvents_eq]
  simp only [List.append_assoc]
  rw [scan_nibbleEvents hd, scan_wait, scan_nibbleEvents_of_low hd cl _ rfl, scan_wait, scan_nibbleEvents_of_low hd cl _ rfl,
    scan_wait, scan_nibbleEvents_of_low hd cl _ rfl, scan_delays_append cl c.pin fun _ h => mem_commitEvents h]
  rfl

/-- The whole of `init` (R142, R266). -/
theorem scan_initEvents (par : Params) (bytes : List ByteEntry) {es : List Event} (hes : ∀ e ∈ es, ∃ n, e = .delayUs n)
    (ls : Lines) :
    scanNibbles cl c.pin ls (powerOnEvents c ++ (resyncEvents par c ++
        (bytes.flatMap (fun e => byteEvents c e.kind e.value) ++ es))) =
      (if cl = .high then [⟨.high, 0x3⟩] else []) ++
        ([0x3, 0x3, 0x3, 0x2].map fun n => (⟨Level.toLine cl, n⟩ : NibbleEntry)) ++
        bytes.flatMap fun e => byteNibbles e.kind e.value := by
  obtain ⟨ls₁, hpower, hrs, he⟩ := scan_powerOnEvents hd cl ls (resyncEvents par c ++
    (bytes.flatMap (fun e => byteEvents c e.kind e.value) ++ es))
  obtain ⟨ls₂, hresync, he₂⟩ := scan_resyncEvents hd cl par ls₁ (bytes.flatMap (fun e => byteEvents c e.kind e.value) ++ es)
  rw [hpower, hresync, scan_bytes hd cl bytes he₂ hes, hrs, he]
  cases cl <;> rfl

end

theorem drop_trace {s t : State} {es : List Event} (h : t.trace = s.trace ++ es) (n : Nat) :
    t.trace.drop (s.trace.length + n) = es.drop n := by
  rw [h, ← List.drop_drop, List.drop_left]

/-- What the scan finds in the events of a successful `init`. -/
theorem scan_exec_init {s t : State} {c : DriverConfig} (h : exec (.init (some c)) s = .next t) :
    scanNibbles s.par.configLevel t.cfg.pin s.line (t.trace.drop s.trace.length) =
      (if s.par.configLevel = .high then [⟨.high, 0x3⟩] else []) ++
        (resyncNibbles s.par ++ (initBytes s.par c).flatMap fun e => byteNibbles e.kind e.value) := by
  obtain ⟨_, ⟨hnone, _⟩ | ⟨c', hc, hd, _⟩⟩ := execInit_eq_next (config := some c) h
  · cases hnone
  · cases hc
    have htrace := drop_trace (exec_host_trace (op := .init (some c)) rfl rfl h) 0
    have hwait : ∀ e ∈ [Event.delayUs c.time.tClear], ∃ n, e = .delayUs n := by simp
    have hcfg : t.cfg = c := exec_cfg h
    rw [Nat.add_zero, List.drop_zero] at htrace
    rw [htrace, hcfg]
    simp only [hostEvents, List.append_assoc]
    rw [scan_initEvents hd s.par.configLevel s.par (initBytes s.par c) hwait, List.append_assoc]
    rfl

/-- What any other host operation that answers logs is what the scan finds in its events. -/
theorem nibLog_eq_scan {op : Instr} {s t : State} (hh : isHostOperation op = true) (hi : ∀ c, op ≠ .init (some c))
    (hs : s.LinesSound) (h : exec op s = .next t) :
    t.nibLog = s.nibLog ++ scanNibbles s.par.configLevel t.cfg.pin s.line (t.trace.drop s.trace.length) := by
  have hpin := exec_pin hi h
  obtain rfl | ⟨c, hc, _⟩ | ⟨hi', hr, hc, rfl, _⟩ := exec_host_next hh h
  · rw [State.deliver_trace, List.drop_length, scanNibbles, List.append_nil]
    rfl
  · exact absurd hc (hi c)
  · obtain ⟨events, hdelay, ⟨htrace, hnib, _⟩, _⟩ := run_opBytes op s hc
    have hdrop := drop_trace htrace 0
    rw [Nat.add_zero, List.drop_zero] at hdrop
    rw [hnib, hpin, hdrop, scan_bytes (hs.distinct hr) _ _ (hs.enableLow hr) hdelay]

/-- Settles O45: each operation's events are found as its nibbles, `init`'s with one more in front where E comes up high. -/
theorem nibbleLogFollowsFromTheTrace : Obligations.NibbleLogFollowsFromTheTrace := by
  unfold Obligations.NibbleLogFollowsFromTheTrace
  intro op s t hh hs h found
  split
  · next c =>
    have hfound : found = _ := scan_exec_init h
    have hnib := exec_init_nibLog h
    rw [List.append_assoc] at hnib
    refine ⟨fun hlow => ?_, fun hhigh => ⟨_, hnib, ?_⟩⟩
    · rw [hnib, hfound, hlow]
      rfl
    · rw [hfound, hhigh]
      rfl
  · next hi => exact nibLog_eq_scan hh hi hs h

/-! ### The lines while E is high -/

section
variable {c : DriverConfig} (hd : PinConfig.distinct c.pin = true)
include hd

theorem dataStable_lineWrite (l : Line) (v : Level) (b : Bool) (es : List Event) :
    dataStable c.pin b (lineWrite c l v :: es) =
      if l = .e then dataStable c.pin (decide (v = .high)) es else !b && dataStable c.pin b es := by
  have hpin : PinConfig.ofLine c.pin l = c.pin.e ↔ l = .e :=
    ⟨fun h => PinConfig.ofLine_inj hd (k := .e) h, fun h => h ▸ rfl⟩
  simp only [lineWrite, dataStable, hpin]

/-- A pulse from the write that makes E low on, from whatever level, leaves E low. -/
theorem dataStable_pulseEvents (b : Bool) (es : List Event) :
    dataStable c.pin b (pulseEvents c ++ es) = dataStable c.pin false es := by
  simp [pulseEvents, dataStable_lineWrite hd, dataStable]

theorem dataStable_nibbleEvents (n : Nibble) (es : List Event) :
    dataStable c.pin false (nibbleEvents c n ++ es) = dataStable c.pin false es := by
  rw [nibbleEvents, List.append_assoc]
  simp only [List.cons_append, List.nil_append, dataStable_lineWrite hd, dataStable_pulseEvents hd]
  rfl

theorem dataStable_byteEvents (k : ByteKind) (v : Byte) (es : List Event) :
    dataStable c.pin false (byteEvents c k v ++ es) = dataStable c.pin false es := by
  simp only [byteEvents, List.append_assoc, List.cons_append, List.nil_append, dataStable_lineWrite hd,
    dataStable_nibbleEvents hd]
  rfl

omit hd in
theorem dataStable_delays_append (b : Bool) {ds : List Event} (hds : ∀ e ∈ ds, ∃ n, e = .delayUs n) (es : List Event) :
    dataStable c.pin b (ds ++ es) = dataStable c.pin b es := by
  induction ds with
  | nil => rfl
  | cons d ds ih =>
    obtain ⟨⟨n, rfl⟩, hds'⟩ := List.forall_mem_cons.mp hds
    exact ih hds'

theorem dataStable_bytes (bytes : List ByteEntry) {ds : List Event} (hds : ∀ e ∈ ds, ∃ n, e = .delayUs n) :
    dataStable c.pin false (bytes.flatMap (fun e => byteEvents c e.kind e.value) ++ ds) = true := by
  induction bytes with
  | nil =>
    have := dataStable_delays_append (c := c) false hds []
    rwa [List.append_nil] at this
  | cons e bytes ih => rw [List.flatMap_cons, List.append_assoc, dataStable_byteEvents hd, ih]

/-- The resync sequence from the end of its first pulse on. -/
theorem dataStable_resyncRest (par : Params) (es : List Event) :
    dataStable c.pin false ([.delayUs 4500] ++ (nibbleEvents c 0x3 ++ ([.delayUs 4500] ++
      (nibbleEvents c 0x3 ++ ([.delayUs 150] ++ (nibbleEvents c 0x2 ++ (commitEvents par ++ es))))))) =
      dataStable c.pin false es := by
  simp only [List.cons_append, List.nil_append, dataStable, dataStable_nibbleEvents hd,
    dataStable_delays_append (c := c) false fun _ h => mem_commitEvents (par := par) h]

end

/-- No operation but a successful `init`, at any CONFIG_LEVEL (R254). -/
theorem dataStable_of_exec {op : Instr} {s t : State} (hh : isHostOperation op = true) (hi : ∀ c, op ≠ .init (some c))
    (hs : s.LinesSound) (h : exec op s = .next t) :
    dataStable t.cfg.pin false (t.trace.drop s.trace.length) = true := by
  have hpin := exec_pin hi h
  obtain rfl | ⟨c, hc, _⟩ | ⟨hi', hr, hc, rfl, _⟩ := exec_host_next hh h
  · rw [State.deliver_trace, List.drop_length]
    rfl
  · exact absurd hc (hi c)
  · obtain ⟨events, hdelay, ⟨htrace, _, _⟩, _⟩ := run_opBytes op s hc
    have hdrop := drop_trace htrace 0
    rw [Nat.add_zero, List.drop_zero] at hdrop
    rw [hpin, hdrop, dataStable_bytes (hs.distinct hr) _ hdelay]

/-- What follows the first nibble of a successful `init` (R142). -/
theorem exec_init_trace {s t : State} {c : DriverConfig} (hd : PinConfig.distinct c.pin = true)
    (h : exec (.init (some c)) s = .next t) :
    ∃ rest, t.trace = s.trace ++ (powerOnEvents c ++ (nibbleEvents c 0x3 ++ rest)) ∧
      dataStable c.pin false rest = true := by
  have htrace := exec_host_trace (op := .init (some c)) rfl rfl h
  simp only [hostEvents, resyncEvents_eq, List.append_assoc] at htrace
  refine ⟨_, htrace, ?_⟩
  have hwait : ∀ e ∈ [Event.delayUs c.time.tClear], ∃ n, e = .delayUs n := by simp
  rw [dataStable_resyncRest hd, dataStable_bytes hd _ hwait]

/-- A successful `init`: as a whole, E being taken as low before it, and from the first fall of E on (R254, R266). -/
theorem dataStable_of_exec_init {s t : State} {c : DriverConfig} (h : exec (.init (some c)) s = .next t) :
    dataStable t.cfg.pin false (t.trace.drop s.trace.length) = true ∧
      dataStable t.cfg.pin false (t.trace.drop (s.trace.length + 12)) = true := by
  obtain ⟨_, ⟨hnone, _⟩ | ⟨c', hc, hd, _⟩⟩ := execInit_eq_next (config := some c) h
  · cases hnone
  · cases hc
    have hcfg : t.cfg = c := exec_cfg h
    obtain ⟨rest, htrace, hrest⟩ := exec_init_trace hd h
    have hwhole := drop_trace htrace 0
    rw [Nat.add_zero, List.drop_zero] at hwhole
    have hcut : t.trace.drop (s.trace.length + 12) =
        .delayUs 1 :: lineWrite c .e .high :: .delayUs c.time.tEnpulse :: lineWrite c .e .low :: rest := drop_trace htrace 12
    rw [hwhole, hcut, hcfg]
    refine ⟨?_, ?_⟩
    · show dataStable c.pin false (nibbleEvents c 0x3 ++ rest) = true
      rw [dataStable_nibbleEvents hd, hrest]
    · simp [dataStable, dataStable_lineWrite hd, hrest]

/-- Settles O47: no clause needs CONFIG_LEVEL, because a configuration is no write. -/
theorem linesAreStableWhileEnableIsHigh : Obligations.LinesAreStableWhileEnableIsHigh := by
  unfold Obligations.LinesAreStableWhileEnableIsHigh
  intro op s t hh hs h
  by_cases hi : ∃ c, op = .init (some c)
  · obtain ⟨c, rfl⟩ := hi
    obtain ⟨hwhole, hcut⟩ := dataStable_of_exec_init h
    exact ⟨fun _ => hwhole, fun _ _ => hcut⟩
  · have hi' : ∀ c, op ≠ .init (some c) := fun c e => hi ⟨c, e⟩
    exact ⟨fun _ => dataStable_of_exec hh hi' hs h, fun c e => absurd e (hi' c)⟩

end Sys2Proof.Machine
end

section
/-! SUPPORT. How the reference observer reacts to one byte (20_memory.md R82 to R86), and the statements about it. -/

namespace Sys2Proof.Machine

/-- Settles O57: the laws of one write. -/
theorem memoryWriteThenRead : Obligations.MemoryWriteThenRead := by
  unfold Obligations.MemoryWriteThenRead
  refine fun m a b v => ⟨?_, fun hm => Memory.write_wf hm a v⟩
  split
  · next h => rw [h, Memory.read_write_same]
  · next h => exact Memory.read_write_other m v h

/-! ### Which reaction a byte gets -/

theorem Lcd.byte_of_lost {l : Lcd} {t : TimingConfig} (h : l.iface = .unknown ∨ TimingConfig.sane t = false) (blank : Byte)
    (e : ByteEntry) : Lcd.byte blank t e l = Lcd.allUnknown := by
  refine if_neg fun hc => ?_
  obtain ⟨hs, hi⟩ := Bool.and_eq_true_iff.mp hc
  obtain h | h := h
  · cases h.symm.trans (of_decide_eq_true hi)
  · cases h.symm.trans hs

section
variable {l : Lcd} {t : TimingConfig} (hs : TimingConfig.sane t = true) (hi : l.iface = .fourBit)
include hs hi

theorem Lcd.byte_cmd (blank v : Byte) : Lcd.byte blank t ⟨.cmd, v⟩ l = Lcd.command blank v l :=
  if_pos (by rw [hs, hi]; rfl)

theorem Lcd.byte_data (blank v : Byte) : Lcd.byte blank t ⟨.data, v⟩ l = Lcd.dataByte v l :=
  if_pos (by rw [hs, hi]; rfl)

end

/-! ### The rows of the command table -/

section
variable (blank : Byte) (l : Lcd)

theorem Lcd.command_setDdram (a : BitVec 7) :
    Lcd.command blank (0x80#8 ||| a.setWidth 8) l = { l with mode := .ddram, ac := some a } := by
  have haddr : ∀ a : BitVec 7, (0x80#8 ||| a.setWidth 8).extractLsb' 0 7 = a := by decide
  rw [Lcd.command_of_getLsbD_seven (setDdram_getLsbD_seven a), haddr]

theorem Lcd.command_setCgram (a : BitVec 6) :
    Lcd.command blank (0x40#8 ||| a.setWidth 8) l = { l with mode := .cgram, ac := some (a.setWidth 7) } := by
  have hbits : ∀ a : BitVec 6, (0x40#8 ||| a.setWidth 8).getLsbD 7 = false ∧ (0x40#8 ||| a.setWidth 8).getLsbD 6 = true ∧
      (0x40#8 ||| a.setWidth 8).extractLsb' 0 6 = a := by decide
  obtain ⟨h7, h6, haddr⟩ := hbits a
  simp only [Lcd.command, h7, h6, haddr, Bool.false_eq_true, ↓reduceIte]

theorem Lcd.command_functionSet (x n f : Bool) (r : BitVec 2) :
    Lcd.command blank (0x20#8 ||| flagBit x 4 ||| flagBit n 3 ||| flagBit f 2 ||| r.setWidth 8) l =
      if n && f then { l with twoLine := none, font5x10 := none } else { l with twoLine := some n, font5x10 := some f } := by
  have hbits : ∀ (x n f : Bool) (r : BitVec 2),
      let v := 0x20#8 ||| flagBit x 4 ||| flagBit n 3 ||| flagBit f 2 ||| r.setWidth 8
      v.getLsbD 7 = false ∧ v.getLsbD 6 = false ∧ v.getLsbD 5 = true ∧ v.getLsbD 3 = n ∧ v.getLsbD 2 = f := by decide
  obtain ⟨h7, h6, h5, h3, h2⟩ := hbits x n f r
  simp only [Lcd.command, h7, h6, h5, h3, h2, Bool.false_eq_true, ↓reduceIte]

theorem Lcd.command_cursorShift (r : BitVec 4) : Lcd.command blank (0x10#8 ||| r.setWidth 8) l = Lcd.allUnknown := by
  have hbits : ∀ r : BitVec 4, let v := 0x10#8 ||| r.setWidth 8
      v.getLsbD 7 = false ∧ v.getLsbD 6 = false ∧ v.getLsbD 5 = false ∧ v.getLsbD 4 = true := by decide
  obtain ⟨h7, h6, h5, h4⟩ := hbits r
  simp only [Lcd.command, h7, h6, h5, h4, Bool.false_eq_true, ↓reduceIte]

theorem Lcd.command_displayControl (d c b : Bool) :
    Lcd.command blank (0x08#8 ||| flagBit d 2 ||| flagBit c 1 ||| flagBit b 0) l =
      { l with on := some d, cursor := some c, blink := some b } := by
  cases d <;> cases c <;> cases b <;> rfl

theorem Lcd.command_entryMode (r : BitVec 2) : Lcd.command blank (0x04#8 ||| r.setWidth 8) l = Lcd.allUnknown := by
  have hbits : ∀ r : BitVec 2, let v := 0x04#8 ||| r.setWidth 8
      v.getLsbD 7 = false ∧ v.getLsbD 6 = false ∧ v.getLsbD 5 = false ∧ v.getLsbD 4 = false ∧ v.getLsbD 3 = false ∧
        v.getLsbD 2 = true := by decide
  obtain ⟨h7, h6, h5, h4, h3, h2⟩ := hbits r
  simp only [Lcd.command, h7, h6, h5, h4, h3, h2, Bool.false_eq_true, ↓reduceIte]

theorem Lcd.command_home (x : Bool) :
    Lcd.command blank (0x02#8 ||| flagBit x 0) l = { l with mode := .ddram, ac := some 0 } := by
  cases x <;> rfl

theorem Lcd.command_clear :
    Lcd.command blank 0x01#8 l = { l with ddram := clearedDdram blank, mode := .ddram, ac := some 0 } := rfl

theorem Lcd.command_zero : Lcd.command blank 0x00#8 l = Lcd.allUnknown := rfl

end

/-- Settles O48: the lost observer, then one row after the other. -/
theorem observerCommandTable : Obligations.ObserverCommandTable := by
  unfold Obligations.ObserverCommandTable
  refine ⟨fun blank t e l h => Lcd.byte_of_lost h blank e, fun blank t l hs hi => ?_⟩
  simp only [Lcd.byte_cmd hs hi]
  exact ⟨Lcd.command_setDdram blank l, Lcd.command_setCgram blank l, Lcd.command_functionSet blank l,
    Lcd.command_cursorShift blank l, Lcd.command_displayControl blank l, Lcd.command_entryMode blank l,
    Lcd.command_home blank l, ⟨_, Lcd.command_clear blank l, read_clearedDdram blank⟩, Lcd.command_zero blank l⟩

/-! ### A data byte -/

/-- The addresses at which a data byte is stored, in each mode (R85). -/
def Lcd.inRange (mode : LcdMode) (a : Nat) : Bool :=
  match mode with
  | .ddram => onScreen a
  | .cgram => decide (a < 64)
  | .unknown => false

/-- The address after a byte stored before `a`: `a` itself if it is in range (R85, D24). -/
def Lcd.addrAt (mode : LcdMode) (a : Nat) : Option (BitVec 7) := if Lcd.inRange mode a then some (BitVec.ofNat 7 a) else none

/-- Consecutive bytes from an address on. -/
def Memory.writeFrom (m : Memory) (a : Nat) (vs : List Byte) : Memory :=
  match vs with
  | [] => m
  | v :: vs => Memory.writeFrom (Memory.write m a v) (a + 1) vs

/-- The observer with consecutive bytes stored in the memory of its mode, five bits of each in CGRAM (R85). -/
def Lcd.storeFrom (l : Lcd) (a : Nat) (vs : List Byte) : Lcd :=
  match l.mode with
  | .ddram => { l with ddram := Memory.writeFrom l.ddram a vs }
  | .cgram => { l with cgram := Memory.writeFrom l.cgram a (vs.map (· &&& 0x1F)) }
  | .unknown => l

theorem Lcd.storeFrom_ddram {l : Lcd} (hm : l.mode = .ddram) (a : Nat) (vs : List Byte) :
    l.storeFrom a vs = { l with ddram := Memory.writeFrom l.ddram a vs } := by
  rw [Lcd.storeFrom, hm]

theorem Lcd.storeFrom_cgram {l : Lcd} (hm : l.mode = .cgram) (a : Nat) (vs : List Byte) :
    l.storeFrom a vs = { l with cgram := Memory.writeFrom l.cgram a (vs.map (· &&& 0x1F)) } := by
  rw [Lcd.storeFrom, hm]

theorem add_one_eq_ofNat (a : BitVec 7) : a + 1 = BitVec.ofNat 7 (a.toNat + 1) :=
  BitVec.eq_of_toNat_eq (by simp)

/-- In range a byte is stored and the address moves on by one (R70, R85). -/
theorem Lcd.dataByte_of_inRange {l : Lcd} {a : BitVec 7} (ha : l.ac = some a) (h : Lcd.inRange l.mode a.toNat = true) (v : Byte) :
    Lcd.dataByte v l = { l.storeFrom a.toNat [v] with ac := Lcd.addrAt l.mode (a.toNat + 1) } := by
  cases hm : l.mode with
  | unknown =>
    rw [hm] at h
    cases h
  | ddram =>
    rw [hm] at h
    have hon : onScreen a.toNat = true := h
    rw [Lcd.storeFrom_ddram hm]
    simp only [Lcd.dataByte, hm, ha, hon, ↓reduceIte, nextDdramAddr, add_one_eq_ofNat]
    rfl
  | cgram =>
    rw [hm] at h
    have hlt : a.toNat < 64 := of_decide_eq_true h
    have hnext : a.toNat + 1 < 64 ↔ a.toNat < 63 := by omega
    rw [Lcd.storeFrom_cgram hm]
    simp only [Lcd.dataByte, hm, ha, hlt, ↓reduceIte, nextCgramAddr, add_one_eq_ofNat, Lcd.addrAt, Lcd.inRange,
      decide_eq_true_eq, hnext]
    rfl

/-- Elsewhere every cell becomes unknown and the address stays (R85, log entry 14). -/
theorem Lcd.dataByte_of_not_inRange {l : Lcd} (h : ∀ a, l.ac = some a → Lcd.inRange l.mode a.toNat = false) (v : Byte) :
    Lcd.dataByte v l = l.forgetCells := by
  unfold Lcd.dataByte
  split
  · next a hm ha =>
    have hr := h a ha
    rw [hm] at hr
    exact if_neg (by rw [show onScreen a.toNat = false from hr]; exact Bool.false_ne_true)
  · next a hm ha =>
    have hr := h a ha
    rw [hm] at hr
    exact if_neg (of_decide_eq_false hr)
  · rfl

theorem and_0x1F_eq_mod : ∀ v : Byte, v &&& 0x1F = BitVec.ofNat 8 (v.toNat % 32) := by decide

/-- A data byte moves neither mode, interface nor flags. -/
theorem Lcd.dataByte_frame (v : Byte) (l : Lcd) :
    (Lcd.dataByte v l).iface = l.iface ∧ (Lcd.dataByte v l).mode = l.mode ∧ (Lcd.dataByte v l).on = l.on ∧
      (Lcd.dataByte v l).cursor = l.cursor ∧ (Lcd.dataByte v l).blink = l.blink ∧
      (Lcd.dataByte v l).twoLine = l.twoLine ∧ (Lcd.dataByte v l).font5x10 = l.font5x10 := by
  unfold Lcd.dataByte
  repeat' split
  all_goals exact ⟨rfl, rfl, rfl, rfl, rfl, rfl, rfl⟩

/-- Settles O49: in range in either memory, or elsewhere. -/
theorem observerDataByte : Obligations.ObserverDataByte := by
  unfold Obligations.ObserverDataByte
  intro blank t l v hs hi l'
  have hl' : l' = Lcd.dataByte v l := Lcd.byte_data hs hi blank v
  obtain ⟨hiface, hmode, hon, hcursor, hblink, htwo, hfont⟩ := Lcd.dataByte_frame v l
  rw [hl']
  refine ⟨hiface.trans hi, hmode, hon, hcursor, hblink, htwo, hfont, fun a hm ha hr => ?_, fun a hm ha hr => ?_, fun h => ?_⟩
  · have hin : Lcd.inRange l.mode a.toNat = true := by rw [hm]; exact hr
    rw [Lcd.dataByte_of_inRange ha hin, Lcd.storeFrom_ddram hm, hm]
    exact ⟨Memory.read_write_same .., fun b hb => Memory.read_write_other _ _ hb, rfl, rfl⟩
  · have hin : Lcd.inRange l.mode a.toNat = true := by rw [hm]; exact decide_eq_true hr
    have hnext : a.toNat + 1 < 64 ↔ a.toNat < 63 := by omega
    rw [Lcd.dataByte_of_inRange ha hin, Lcd.storeFrom_cgram hm, hm, ← and_0x1F_eq_mod]
    refine ⟨Memory.read_write_same .., fun b hb => Memory.read_write_other _ _ hb, rfl, ?_⟩
    simp only [Lcd.addrAt, Lcd.inRange, decide_eq_true_eq, hnext]
  · have hout : ∀ a, l.ac = some a → Lcd.inRange l.mode a.toNat = false := by
      intro a ha
      obtain hm | hn | ⟨a', ha', ⟨hm, hoff⟩ | ⟨hm, hge⟩⟩ := h
      · rw [hm]; rfl
      · cases ha.symm.trans hn
      · cases ha.symm.trans ha'
        rw [hm]
        exact hoff
      · cases ha.symm.trans ha'
        rw [hm]
        exact decide_eq_false (Nat.not_lt.mpr hge)
    rw [Lcd.dataByte_of_not_inRange hout]
    exact ⟨fun _ => rfl, fun _ => rfl, rfl⟩

end Sys2Proof.Machine
end

section
/-! SUPPORT. What whole operations do to the attached controller (20_memory.md R84 to R87, 43_command_operations.md R181 to R187),
and the statements about it. -/

namespace Sys2Proof.Machine

/-! ### After `init` -/

/-- The observer after a successful `init`: the resync sequence, then the three bytes (R82, R252). -/
theorem exec_init_lcd {s t : State} {c : DriverConfig} (h : exec (.init (some c)) s = .next t) :
    t.lcd = (initBytes s.par c).foldl (fun l e => Lcd.byte s.par.blank c.time e l)
      (Lcd.resync c.time (Level.toLine s.par.configLevel) s.lcd) := by
  obtain ⟨_, ⟨hnone, _⟩ | ⟨c', hc, _, ht⟩⟩ := execInit_eq_next (config := some c) h
  · cases hnone
  · cases hc
    obtain ⟨u, hu, _, _, _, _, _, _, _, hlcd⟩ := run_initMicros s c
    rw [ht, hu, State.deliver_lcd, State.setReady_lcd, hlcd]

/-- What is lost stays lost while the block sends bytes (R82). -/
theorem foldl_byte_of_lost {l : Lcd} {t : TimingConfig} (h : l.iface = .unknown ∨ TimingConfig.sane t = false) (blank : Byte)
    {bytes : List ByteEntry} (hb : bytes ≠ []) : bytes.foldl (fun l e => Lcd.byte blank t e l) l = Lcd.allUnknown := by
  induction bytes generalizing l with
  | nil => exact absurd rfl hb
  | cons e bytes ih =>
    rw [List.foldl_cons, Lcd.byte_of_lost h]
    cases bytes with
    | nil => rfl
    | cons e' bytes => exact ih (.inl rfl) nofun

/-- Settles O51: with a high CONFIG_LEVEL the resync sequence leaves the interface unknown. -/
theorem initCanLoseTheDisplay : Obligations.InitCanLoseTheDisplay := by
  unfold Obligations.InitCanLoseTheDisplay
  intro s t c h hrun
  rw [exec_init_lcd hrun]
  refine foldl_byte_of_lost (h.symm.imp_left fun hhigh => ?_) _ nofun
  rw [hhigh, Lcd.resync]
  exact if_neg (by simp [Level.toLine])

/-- With RS low and sane timing the resync sequence puts the interface in 4-bit mode (R82). -/
theorem Lcd.resync_low {t : TimingConfig} (hs : TimingConfig.sane t = true) (l : Lcd) :
    Lcd.resync t .low l = { l with iface := .fourBit } := by
  rw [Lcd.resync, hs]
  rfl

/-- The function-set byte of the block: lines and font, unknown for two lines with the 5x10 font (R84, R110). -/
theorem Lcd.command_blockFunctionSet {par : Params} (hstd : Params.standardCommands par = true) (blank : Byte) (n f : Bool)
    (l : Lcd) : Lcd.command blank (functionSet par n f) l =
      { l with twoLine := if n && f then none else some n, font5x10 := if n && f then none else some f } := by
  rw [functionSet_standard hstd]
  cases n <;> cases f <;> rfl

/-- The three bytes of `init` on a controller in 4-bit mode (R252). -/
theorem foldl_initBytes {par : Params} (hstd : Params.standardCommands par = true) {c : DriverConfig}
    (hs : TimingConfig.sane c.time = true) (blank : Byte) {l : Lcd} (hi : l.iface = .fourBit) :
    (initBytes par c).foldl (fun l e => Lcd.byte blank c.time e l) l =
      { l with
        ddram := clearedDdram blank, mode := .ddram, ac := some 0
        on := some c.disp.displayOn, cursor := some c.disp.cursor, blink := some c.disp.blink
        twoLine := if c.disp.twoLine && c.disp.font5x10 then none else some c.disp.twoLine
        font5x10 := if c.disp.twoLine && c.disp.font5x10 then none else some c.disp.font5x10 } := by
  rw [initBytes, List.foldl_cons, Lcd.byte_cmd hs hi, Lcd.command_blockFunctionSet hstd, List.foldl_cons,
    Lcd.byte_cmd hs (by exact hi), displayControl_standard hstd, Lcd.command_displayControl, List.foldl_cons,
    Lcd.byte_cmd hs (by exact hi), cmdClear_standard hstd, Lcd.command_clear, List.foldl_nil]

/-- Settles O50: the resync sequence ends in 4-bit mode, and then the three bytes have the effects of their rows. -/
theorem initMakesTheDisplayKnown : Obligations.InitMakesTheDisplayKnown := by
  unfold Obligations.InitMakesTheDisplayKnown
  intro s c hq hd hstd hlow hsane
  obtain ⟨t, hrun, _⟩ := initRunsTheWholeSequence s c hq hd
  have hlcd := exec_init_lcd hrun
  rw [hlow, Level.toLine, Lcd.resync_low hsane, foldl_initBytes hstd hsane _ rfl] at hlcd
  refine ⟨t, hrun, ?_⟩
  rw [hlcd]
  exact ⟨rfl, rfl, rfl, read_clearedDdram _, fun _ => rfl, rfl, rfl, rfl, rfl, rfl⟩

/-! ### After one command -/

theorem observeBytes_cmd {s : State} (hsane : TimingConfig.sane s.cfg.time = true) (hi : s.lcd.iface = .fourBit) (v : Byte) :
    observeBytes s [⟨.cmd, v⟩] = Lcd.command s.par.blank v s.lcd :=
  Lcd.byte_cmd hsane hi s.par.blank v

/-- Settles O54: the display-control row writes three flags only. -/
theorem setDisplayLeavesLinesAndFont : Obligations.SetDisplayLeavesLinesAndFont := by
  unfold Obligations.SetDisplayLeavesLinesAndFont
  intro s f hs hstd hsane hi
  obtain ⟨⟨t, hrun, ⟨_, _, hlcd⟩, hcfg, _⟩, _⟩ := setDisplayEffect s f hs
  refine ⟨t, hrun, ?_, by rw [hcfg], by rw [hcfg]⟩
  rw [hlcd, observeBytes_cmd hsane hi, displayControl_standard hstd, Lcd.command_displayControl]

/-- `clear` leaves an operational block operational, and shows a blank screen at address 0 (R84, R181). -/
theorem exec_clear {s : State} (hs : s.operational = true) (hstd : Params.standardCommands s.par = true)
    (hsane : TimingConfig.sane s.cfg.time = true) (hi : s.lcd.iface = .fourBit) :
    ∃ t, exec .clear s = .next t ∧ t.operational = true ∧ t.cfg = s.cfg ∧ t.par = s.par ∧
      t.trace = s.trace ++ (byteEvents s.cfg .cmd s.par.cmdClear ++ [.delayUs s.cfg.time.tClear]) ∧
      t.lcd = { s.lcd with ddram := clearedDdram s.par.blank, mode := .ddram, ac := some 0 } := by
  obtain ⟨hq, hr, _⟩ := (operational_iff s).mp hs
  obtain ⟨t, hrun, ⟨⟨htrace, _⟩, hline, hlcd⟩, ⟨hcfg, hseq, hready, _, hpar⟩, _⟩ := clearEffect s hs
  refine ⟨t, hrun, (operational_iff t).mpr ⟨hseq.trans hq, hready.trans hr, ?_⟩, hcfg, hpar, htrace, ?_⟩
  · rw [hline]
    exact linesAfter_allOutput _ _
  · rw [hlcd, observeBytes_cmd hsane hi, cmdClear_standard hstd, Lcd.command_clear]

/-- Settles O55: the second `clear` starts where the first one ended. -/
theorem clearIsIdempotentOnTheAddress : Obligations.ClearIsIdempotentOnTheAddress := by
  unfold Obligations.ClearIsIdempotentOnTheAddress
  intro s hs hstd hsane hi
  obtain ⟨t, hrun, ht, hcfg, hpar, htrace, hlcd⟩ := exec_clear hs hstd hsane hi
  have hi' : t.lcd.iface = .fourBit := by rw [hlcd]; exact hi
  obtain ⟨u, hrun', _, _, _, htrace', hlcd'⟩ := exec_clear ht (hpar ▸ hstd) (hcfg ▸ hsane) hi'
  rw [hcfg, hpar] at htrace'
  refine ⟨t, u, _, hrun, hrun', htrace, htrace', ?_, ?_, ?_⟩
  · rw [hlcd]
  · rw [hlcd]
  · rw [hlcd', hpar, hlcd]

/-! ### After consecutive data bytes -/

theorem Memory.read_writeFrom_outside (m : Memory) {a b : Nat} (vs : List Byte) (h : b < a ∨ a + vs.length ≤ b) :
    Memory.read (Memory.writeFrom m a vs) b = Memory.read m b := by
  induction vs generalizing m a with
  | nil => rfl
  | cons v vs ih =>
    rw [List.length_cons] at h
    rw [Memory.writeFrom, ih _ (by omega), Memory.read_write_other _ _ (by omega)]

theorem Memory.read_writeFrom_inside (m : Memory) (a : Nat) {vs : List Byte} {i : Nat} {v : Byte} (h : vs[i]? = some v) :
    Memory.read (Memory.writeFrom m a vs) (a + i) = some v := by
  induction vs generalizing m a i with
  | nil => cases h
  | cons w vs ih =>
    cases i with
    | zero =>
      cases h
      rw [Memory.writeFrom, Memory.read_writeFrom_outside _ _ (by omega), Nat.add_zero, Memory.read_write_same]
    | succ i =>
      have hi : a + (i + 1) = a + 1 + i := by omega
      rw [Memory.writeFrom, hi, ih _ _ h]

theorem Lcd.inRange_lt {mode : LcdMode} {a : Nat} (h : Lcd.inRange mode a = true) : a < 128 := by
  cases mode with
  | unknown => cases h
  | ddram => simp only [Lcd.inRange, onScreen, Bool.or_eq_true, Bool.and_eq_true, decide_eq_true_eq] at h; omega
  | cgram => simp only [Lcd.inRange, decide_eq_true_eq] at h; omega

theorem Lcd.storeFrom_mode (l : Lcd) (a : Nat) (vs : List Byte) : (l.storeFrom a vs).mode = l.mode := by
  unfold Lcd.storeFrom
  split <;> rfl

theorem Lcd.storeFrom_cons (l : Lcd) (a : Nat) (v : Byte) (vs : List Byte) (ac ac' : Option (BitVec 7)) :
    ({ ({ l.storeFrom a [v] with ac := ac } : Lcd).storeFrom (a + 1) vs with ac := ac' } : Lcd) =
      { l.storeFrom a (v :: vs) with ac := ac' } := by
  cases l with
  | mk iface mode => cases mode <;> rfl

/-- Bytes written while every address is in range: each in its cell, and the address behind the last (R70, R85). -/
theorem foldl_dataByte (v : Byte) (vs : List Byte) {l : Lcd} {a : BitVec 7} (ha : l.ac = some a)
    (h : ∀ i, i < (v :: vs).length → Lcd.inRange l.mode (a.toNat + i) = true) :
    (v :: vs).foldl (fun l v => Lcd.dataByte v l) l =
      { l.storeFrom a.toNat (v :: vs) with ac := Lcd.addrAt l.mode (a.toNat + (v :: vs).length) } := by
  induction vs generalizing v l a with
  | nil => exact Lcd.dataByte_of_inRange ha (h 0 (by simp)) v
  | cons w vs ih =>
    have hnext : Lcd.inRange l.mode (a.toNat + 1) = true := h 1 (by simp)
    have hnat : (BitVec.ofNat 7 (a.toNat + 1)).toNat = a.toNat + 1 := by
      rw [BitVec.toNat_ofNat]
      exact Nat.mod_eq_of_lt (Lcd.inRange_lt hnext)
    have hac : Lcd.addrAt l.mode (a.toNat + 1) = some (BitVec.ofNat 7 (a.toNat + 1)) := if_pos hnext
    have hlen : a.toNat + 1 + (w :: vs).length = a.toNat + (v :: w :: vs).length := by
      simp only [List.length_cons]
      omega
    rw [List.foldl_cons, Lcd.dataByte_of_inRange ha (h 0 (by simp)), ih w (a := BitVec.ofNat 7 (a.toNat + 1)) hac, hnat,
      Lcd.storeFrom_cons, Lcd.storeFrom_mode, hlen]
    intro i hi
    rw [Lcd.storeFrom_mode, hnat, Nat.add_assoc, Nat.add_comm 1 i]
    exact h (i + 1) (Nat.succ_lt_succ hi)

theorem foldl_dataByte_of_ne_nil {vs : List Byte} (hne : vs ≠ []) {l : Lcd} {a : BitVec 7} (ha : l.ac = some a)
    (h : ∀ i, i < vs.length → Lcd.inRange l.mode (a.toNat + i) = true) :
    vs.foldl (fun l v => Lcd.dataByte v l) l =
      { l.storeFrom a.toNat vs with ac := Lcd.addrAt l.mode (a.toNat + vs.length) } := by
  cases vs with
  | nil => exact absurd rfl hne
  | cons v vs => exact foldl_dataByte v vs ha h

/-- While the timing is sane and the controller in 4-bit mode, data bytes are taken as they come. -/
theorem foldl_byte_data {t : TimingConfig} (hs : TimingConfig.sane t = true) (blank : Byte) (vs : List Byte) {l : Lcd}
    (hi : l.iface = .fourBit) :
    (vs.map fun v => (⟨.data, v⟩ : ByteEntry)).foldl (fun l e => Lcd.byte blank t e l) l =
      vs.foldl (fun l v => Lcd.dataByte v l) l := by
  induction vs generalizing l with
  | nil => rfl
  | cons v vs ih =>
    rw [List.map_cons, List.foldl_cons, List.foldl_cons, Lcd.byte_data hs hi]
    exact ih ((Lcd.dataByte_frame v l).1.trans hi)

/-- Settles O53: the elements' low bytes are stored in DDRAM one after another. -/
theorem textReachesTheScreen : Obligations.TextReachesTheScreen := by
  unfold Obligations.TextReachesTheScreen
  intro s text a hs hsane hi hm ha htext hne hon
  obtain ⟨⟨t, hrun, ⟨_, _, hlcd⟩, _⟩, _⟩ := writeStringEffect s text [] hs htext nofun
  rw [List.append_nil] at hrun
  have hbytes : (text.map fun b => (⟨.data, BitVec.ofNat 8 b⟩ : ByteEntry)) =
      (text.map (BitVec.ofNat 8)).map fun v => ⟨.data, v⟩ := by rw [List.map_map]; rfl
  have hin : ∀ i, i < (text.map (BitVec.ofNat 8)).length → Lcd.inRange s.lcd.mode (a.toNat + i) = true := by
    intro i hlt
    rw [hm]
    exact hon i (by rwa [List.length_map] at hlt)
  rw [observeBytes, hbytes, foldl_byte_data hsane _ _ hi, foldl_dataByte_of_ne_nil (by simpa using hne) ha hin,
    Lcd.storeFrom_ddram hm, hm, List.length_map] at hlcd
  refine ⟨t, hrun, ?_⟩
  rw [hlcd]
  refine ⟨rfl, fun i v hv => Memory.read_writeFrom_inside _ _ ?_, fun b hb => Memory.read_writeFrom_outside _ _ ?_, rfl, rfl⟩
  · rw [List.getElem?_map, hv]
    rfl
  · rwa [List.length_map]

/-! ### After a glyph -/

theorem setCgram_eq_setWidth {par : Params} (hstd : Params.standardCommands par = true) {slot : Nat} (h : slot ≤ 7) :
    setCgram par slot = 0x40#8 ||| (BitVec.ofNat 6 (8 * slot)).setWidth 8 := by
  have hslot : ∀ slot ≤ 7, 0x40#8 ||| BitVec.ofNat 8 (slot <<< 3) = 0x40#8 ||| (BitVec.ofNat 6 (8 * slot)).setWidth 8 := by
    decide
  rw [setCgram_standard hstd, hslot slot h]

/-- The eight rows of a glyph as they are stored (R85). -/
def glyphRows (p : Pattern) : List Byte := (Pattern.toList p).map fun v => operandByte v &&& 0x1F

/-- The ten bytes of `create_glyph` on a controller in 4-bit mode (R184). -/
theorem observeBytes_glyphBytes {s : State} (hstd : Params.standardCommands s.par = true)
    (hsane : TimingConfig.sane s.cfg.time = true) (hi : s.lcd.iface = .fourBit) {slot : Nat} (hslot : slot ≤ 7) (p : Pattern) :
    observeBytes s (glyphBytes s.par slot p) =
      { s.lcd with cgram := Memory.writeFrom s.lcd.cgram (8 * slot) (glyphRows p), mode := .ddram, ac := some 0 } := by
  have hbytes : glyphBytes s.par slot p =
      ⟨.cmd, setCgram s.par slot⟩ :: ((((Pattern.toList p).map operandByte).map fun v => ⟨.data, v⟩) ++
        [⟨.cmd, setDdram s.par 0⟩]) := rfl
  have hne : (Pattern.toList p).map operandByte ≠ [] := by simp [Pattern.toList]
  have hstart : ∀ slot ≤ 7, ((BitVec.ofNat 6 (8 * slot)).setWidth 7).toNat = 8 * slot := by decide
  have hin : ∀ i, i < ((Pattern.toList p).map operandByte).length →
      Lcd.inRange .cgram (((BitVec.ofNat 6 (8 * slot)).setWidth 7).toNat + i) = true := by
    intro i hlt
    have h8 : i < 8 := hlt
    rw [hstart slot hslot]
    exact decide_eq_true (by omega)
  rw [observeBytes, hbytes, List.foldl_cons, Lcd.byte_cmd hsane hi, setCgram_eq_setWidth hstd hslot,
    Lcd.command_setCgram, List.foldl_append, foldl_byte_data hsane _ _ (by exact hi), foldl_dataByte_of_ne_nil hne rfl hin,
    Lcd.storeFrom_cgram rfl, List.foldl_cons, Lcd.byte_cmd hsane (by exact hi), setDdram_standard hstd, Lcd.command_setDdram,
    hstart slot hslot]
  rfl

/-- Settles O52: the rows are stored in the slot's cells, and the restore selects DDRAM. -/
theorem glyphReachesItsSlot : Obligations.GlyphReachesItsSlot := by
  unfold Obligations.GlyphReachesItsSlot
  intro s slot p hs hstd hsane hi hslot
  obtain ⟨heffect, _⟩ := createGlyphEffect s slot (some p) hs
  obtain ⟨t, hrun, ⟨_, _, hlcd⟩, _⟩ := heffect p rfl hslot
  rw [observeBytes_glyphBytes hstd hsane hi hslot] at hlcd
  refine ⟨t, hrun, ?_⟩
  rw [hlcd]
  refine ⟨hi, rfl, rfl, fun i v hv => Memory.read_writeFrom_inside _ _ ?_, fun a ha => Memory.read_writeFrom_outside _ _ ha,
    fun _ => rfl, rfl, rfl, rfl, rfl, rfl⟩
  rw [glyphRows, List.getElem?_map, hv, Option.map_some, and_0x1F_eq_mod, BitVec.toNat_ofNat,
    Nat.mod_mod_of_dvd _ (by decide)]

end Sys2Proof.Machine
end
